-- ==== Sys2Proof/Word.lean ====
section
/-! DEFINITION. The datum of the block: the unsigned byte and the byte sequence (spec/00_scope.md R9, R10). -/

namespace Sys2Proof

/-- An unsigned 8-bit value, bits numbered from 0 (R9). -/
abbrev Byte := BitVec 8

/-- A finite sequence of bytes; index 0 is the first byte on the wire and the first byte received (R10). -/
abbrev Bytes := List Byte

end Sys2Proof
end

