-- ==== Sys2Proof/Syntax.lean ====
section
/-! DEFINITION. The requests of the block, one constructor per row of spec/opcode_table.json
(spec/30_encoding.md R60 to R63). -/

namespace Sys2Proof

/-- A request as the decoder of R64 reads it. -/
inductive Instr where
  /-- ENCODE: `cmd` is the command bytes (R62, R70). -/
  | encode (cmd : Bytes)
  /-- RECEIVE: `chunk` is the bytes of one receive event in arrival order (R62, R85). -/
  | receive (chunk : Bytes)
  /-- RESET: no operand (R62, R106). -/
  | reset
  /-- RESERVED: every request R64 calls ILLEGAL, with the op byte and the data bytes it was presented with
  (R63, R108). -/
  | reserved (opb : Byte) (data : Bytes)
  deriving DecidableEq, Repr

end Sys2Proof
end

