-- ==== Sys2Proof/WellFormed.lean ====
section
/-! DEFINITION. Which terms of `Instr` are requests that can stand at the port (spec/30_encoding.md R60, R61, R63). -/

namespace Sys2Proof

/-- The length field `n` of a request has 32 bits (R60). -/
def lengthFits (data : Bytes) : Bool := decide (data.length < 2 ^ 32)

/-- The reserved and illegal encodings of R63: `opb = 0x00`, every `opb` with a bit of `opb[7:2]` set, and `0x03`
with data. -/
def isReserved (opb : Byte) (data : Bytes) : Bool :=
  opb == 0x00 || (opb >>> 2) != 0x00 || (opb == 0x03 && !data.isEmpty)

/-- A request that some byte sequence of R60 encodes: its data length fits the length field, and a `reserved` request
carries a reserved or illegal encoding. -/
def Instr.wellFormed : Instr → Bool
  | .encode cmd => lengthFits cmd
  | .receive chunk => lengthFits chunk
  | .reset => true
  | .reserved opb data => lengthFits data && isReserved opb data

end Sys2Proof
end

