-- ==== Sys2Proof/Decode.lean ====
section
/-! DEFINITION. Decoding a request, total on every byte sequence (spec/30_encoding.md R64), the encoder of R60, and
the split of the port's byte stream into requests. -/

namespace Sys2Proof

/-- What R64 answers for a byte sequence. ILLEGAL is the instruction `Instr.reserved`, the opcode table's RESERVED. -/
inductive DecodeResult where
  /-- The request has not arrived in full. -/
  | incomplete
  /-- The sequence holds more than one request. -/
  | trailing
  /-- Exactly one request. -/
  | ok (i : Instr)
  deriving DecidableEq, Repr

/-- The `k` low bytes of `v`, most significant first: `be16`, `be32` and `be64` of R11 for `k` = 2, 4, 8. -/
def beBytes : Nat → Nat → Bytes
  | 0, _ => []
  | k + 1, v => BitVec.ofNat 8 (v / 256 ^ k) :: beBytes k v

/-- `be32` (R11). -/
def be32 (v : Nat) : Bytes := beBytes 4 v

/-- The value of the length field `n` (R64). -/
def lengthField (b1 b2 b3 b4 : Byte) : Nat :=
  b1.toNat * 2 ^ 24 + b2.toNat * 2 ^ 16 + b3.toNat * 2 ^ 8 + b4.toNat

/-- The opcode map (R61), with the illegal forms of R63, for a request whose data is whole. -/
def classify (opb : Byte) (data : Bytes) : Instr :=
  if opb = 0x01 then .encode data
  else if opb = 0x02 then .receive data
  else if opb = 0x03 ∧ data = [] then .reset
  else .reserved opb data

/-- `decode` of R64. -/
def decode : Bytes → DecodeResult
  | opb :: b1 :: b2 :: b3 :: b4 :: data =>
    if data.length < lengthField b1 b2 b3 b4 then .incomplete
    else if lengthField b1 b2 b3 b4 < data.length then .trailing
    else .ok (classify opb data)
  | _ => .incomplete

/-- "The length of a request is always known from its first five bytes" (R64): `5 + n`. -/
def requestLength : Bytes → Option Nat
  | _ :: b1 :: b2 :: b3 :: b4 :: _ => some (5 + lengthField b1 b2 b3 b4)
  | _ => none

/-- The first whole request of a byte stream and the bytes after it: the split at `5 + n` of R64. -/
def splitRequest (r : Bytes) : Option (Bytes × Bytes) :=
  match requestLength r with
  | none => none
  | some k => if r.length < k then none else some (r.take k, r.drop k)

/-- The next request the port's byte stream holds, decoded, and the stream after it; `none` while the request has not
arrived (INCOMPLETE). -/
def fetch (port : Bytes) : Option (Instr × Bytes) :=
  match splitRequest port with
  | none => none
  | some (r, rest) =>
    match decode r with
    | .ok i => some (i, rest)
    | .incomplete => none
    | .trailing => none

/-- The op byte of a request (R61). -/
def opByte : Instr → Byte
  | .encode _ => 0x01
  | .receive _ => 0x02
  | .reset => 0x03
  | .reserved opb _ => opb

/-- The operand bytes of a request (R62): taken as they are, no extension, no immediate. -/
def operandBytes : Instr → Bytes
  | .encode cmd => cmd
  | .receive chunk => chunk
  | .reset => []
  | .reserved _ data => data

/-- The byte encoding of a request (R60): `[opb] ++ be32(len(data)) ++ data`. -/
def encode (i : Instr) : Bytes :=
  opByte i :: (be32 (operandBytes i).length ++ operandBytes i)

/-- The `k` low bytes of `w`, least significant first: how the opcode table numbers the bits of a request's bytes. -/
def leBytes : Nat → Nat → Bytes
  | 0, _ => []
  | k + 1, w => BitVec.ofNat 8 w :: leBytes k (w / 256)

/-- A table word's bytes, followed by the zero bytes that its request still needs: the rest of the five-byte head,
then the rest of the data. -/
def padRequest (bytes : Bytes) : Bytes :=
  let head := bytes ++ List.replicate (5 - bytes.length) 0x00
  match requestLength head with
  | none => head
  | some k => head ++ List.replicate (k - head.length) 0x00

/-- The bytes of a request whose `nbits` low bits are `w` in the opcode table's numbering, all further bits zero. -/
def tableWordBytes (nbits w : Nat) : Bytes := padRequest (leBytes ((nbits + 7) / 8) w)

/-- The instruction the decoder reads from a table word. -/
def decodeTableWord (nbits w : Nat) : Option Instr :=
  match decode (tableWordBytes nbits w) with
  | .ok i => some i
  | .incomplete => none
  | .trailing => none

end Sys2Proof
end

