-- ==== Sys2Proof/Config.lean ====
section
/-! DEFINITION. The configuration of the block (spec/00_scope.md R6) and the free values of the model: Transport's
answers, which the environment chooses (spec/10_state.md R30). -/

namespace Sys2Proof

/-- A marker of the inbound stream: two bytes, the first on the wire first (R6). -/
structure Marker where
  first : Byte
  second : Byte
  deriving DecidableEq, Repr

/-- The implementation parameters of R6, fixed before the first request and written by no request. `START_DELIM` alone
is "fixed, not configurable" and stands in Machine/Params.lean. -/
structure Config where
  /-- `P_FRAME_TYPE`, 8 bits. -/
  frameType : Byte
  /-- `P_FRAME_ID`, 8 bits. -/
  frameId : Byte
  /-- `P_DEST64`, 64 bits. -/
  dest64 : BitVec 64
  /-- `P_DEST16`, 16 bits. -/
  dest16 : BitVec 16
  /-- `P_RADIUS`, 8 bits. -/
  radius : Byte
  /-- `P_OPTIONS`, 8 bits. -/
  options : Byte
  /-- `P_CEILING`, in bytes. -/
  ceiling : Nat
  /-- `P_MAX_CHUNK`, in bytes; `none` is unbounded. -/
  maxChunk : Option Nat
  /-- `START_MARK`, 2 bytes. -/
  startMark : Marker
  /-- `END_MARK`, 2 bytes. -/
  endMark : Marker
  deriving DecidableEq, Repr

/-- Free value: Transport's connection state sampled by the `n`-th ENCODE of a run, where the state lists no answer
for it (R30; log entry 3). Nothing constrains it. -/
opaque Config.freeConnected : Nat → Bool

/-- Free value: how many bytes Transport accepts of the frame of the `n`-th ENCODE of a run, where the state lists no
answer for it (R30; log entry 3). Only the bound `0 <= k <= len(F)` of R30 holds of what `TxWrite` yields. -/
opaque Config.freeAccepted : Nat → Nat

end Sys2Proof
end

