-- ==== Sys2Proof/Machine/Params.lean ====
section
/-! DEFINITION. The fixed parameter and the derived constants of the block, and the default configuration
(spec/00_scope.md R6, R7). -/

namespace Sys2Proof

/-- A marker as a byte sequence. -/
def Marker.bytes (m : Marker) : Bytes := [m.first, m.second]

end Sys2Proof

namespace Sys2Proof.Machine

/-- `START_DELIM` (R6), fixed: opens a BinaryFrame. -/
def startDelim : Byte := 0x7E

/-- `HDR_LEN` (R7): the length of the fixed part of the payload. -/
def hdrLen : Nat := 14

/-- `MAX_PAYLOAD` (R7): the largest value of the 16-bit length field. -/
def maxPayload : Nat := 65535

/-- `MAX_CMD` (R7): the longest command the encoder accepts. -/
def maxCmd : Nat := maxPayload - hdrLen

/-- The default configuration (R6; log entries 6, 16, 17 and 27): the markers are ASCII `/*` and `*/`. -/
def defaultConfig : Config where
  frameType := 0x10
  frameId := 0x01
  dest64 := 0x000000000000FFFF
  dest16 := 0xFFFE
  radius := 0x00
  options := 0x00
  ceiling := 10240
  maxChunk := none
  startMark := ⟨0x2F, 0x2A⟩
  endMark := ⟨0x2A, 0x2F⟩

end Sys2Proof.Machine
end

