-- ==== Sys2Proof/Machine/State.lean ====
section
/-! DEFINITION. The state of the block as plain data: the spec's state (spec/10_state.md R19 to R22), its
configuration (spec/00_scope.md R6), and its ports as lists (R29 to R32); the state after reset (R37, R125). -/

namespace Sys2Proof.Machine

/-- `rs_state`, the Reassembler's state (R21). -/
inductive RsState where
  | accumulating
  | extracting
  deriving DecidableEq, Repr

/-- The status codes of a response (spec/60_exceptions.md R111). -/
inductive Status where
  /-- OK: ENCODE with every byte accepted, RECEIVE without a drop, RESET. -/
  | ok
  /-- NOT_SENT_EMPTY: ENCODE of an empty command (R72). -/
  | notSentEmpty
  /-- NOT_SENT_TOO_LONG: ENCODE of a command over `MAX_CMD` bytes (R73). -/
  | notSentTooLong
  /-- NOT_SENT_DISCONNECTED: ENCODE while Transport reports not connected (R74). -/
  | notSentDisconnected
  /-- NOT_SENT_SHORT_WRITE: Transport accepted only a part of the frame (R77). -/
  | notSentShortWrite
  /-- RX_DROPPED: RECEIVE cleared an over-long residue (R95). -/
  | rxDropped
  deriving DecidableEq, Repr

/-- The document's error taxonomy (R112), as far as a status of the block falls under it. -/
inductive ErrorCategory where
  /-- (a) connectivity errors. -/
  | connectivity
  /-- (b) malformed input. -/
  | malformedInput
  /-- (d) overflow/garbage protection. -/
  | overflow
  deriving DecidableEq, Repr

/-- The response to a request (R29). -/
structure Resp where
  status : Status
  frames : List Bytes
  dropped : Bool
  deriving DecidableEq, Repr

/-- Why a request is refused (R115). -/
inductive RefuseReason where
  /-- ILLEGAL_REQUEST (R63, R108). -/
  | illegalRequest
  /-- CHUNK_TOO_LONG (R88). -/
  | chunkTooLong
  deriving DecidableEq, Repr

/-- What became of an executed request: its one response, or, for a refused request, no response (R29, R115). -/
inductive Answer where
  | response (r : Resp)
  | refused (why : RefuseReason)
  deriving DecidableEq, Repr

/-- Transport's answers to one ENCODE, the draws of R30: `connected` for `TxConnected`, `accepted` for `TxWrite`. -/
structure TxDraw where
  connected : Bool
  accepted : Nat
  deriving DecidableEq, Repr

/-- A call of the block to Transport, with the answer Transport gave (R13, R30). -/
inductive TransportCall where
  /-- `TxConnected() -> answer`. -/
  | isConnected (answer : Bool)
  /-- `TxWrite(bytes) -> accepted`. -/
  | write (bytes : Bytes) (accepted : Nat)
  deriving DecidableEq, Repr

/-- Reasons a step can stop with a fault. There is none: the block raises no exception and no status is fatal
(R114, R119 to R121). -/
inductive Fault where
  deriving DecidableEq, Repr

/-- Reasons a step can stop with a refusal of the model. A request the SPEC calls refused is no stop: the spec gives
its effect, so it is a next state with the mark `refused` set (R115; log entry 2). -/
inductive Refusal where
  /-- Raised by `exec`'s arm of an instruction that has no meaning yet; safe. Every instruction has its meaning, so no
  arm raises it. -/
  | notModelled (mnemonic : String)
  deriving DecidableEq, Repr

/-- The state. `buf`, `rsState` and `refused` are the spec's state (R19). `cfg` is the configuration, which no request
writes (R19; log entry 5). The other fields are the block's ports and the environment's record of them, the model's
own (log entries 1, 3 and 4). -/
structure State where
  /-- The configuration (R6). -/
  cfg : Config
  /-- The InboundByteBuffer, oldest byte first (R20). -/
  buf : Bytes
  /-- The Reassembler's state (R21). -/
  rsState : RsState
  /-- The sticky refusal mark (R22). -/
  refused : Bool
  /-- The request port: bytes the client has presented and the block has not taken, oldest first (R29, R60). -/
  port : Bytes
  /-- Transport's answers to the coming ENCODEs, next first (R30). -/
  txDraws : List TxDraw
  /-- How many ENCODEs have taken their draw: the index of the free values (R30). -/
  txDrawn : Nat
  /-- The calls made to Transport, oldest first (R30, R76). -/
  calls : List TransportCall
  /-- What became of each executed request, oldest first (R29, R32). -/
  answers : List Answer
  deriving DecidableEq, Repr

/-- Power-on reset with a given configuration (R37, R125, R129): an empty buffer, ACCUMULATING, no refusal. The ports
are empty (log entry 7). -/
def State.powerOn (cfg : Config) : State where
  cfg := cfg
  buf := []
  rsState := .accumulating
  refused := false
  port := []
  txDraws := []
  txDrawn := 0
  calls := []
  answers := []

/-- The machine right after reset, with the default configuration of R6. -/
def State.reset : State := State.powerOn defaultConfig

end Sys2Proof.Machine
end

