-- ==== Sys2Proof/Machine/Flags.lean ====
section
/-! DEFINITION. The block holds no flags (spec/10_state.md R26). What stands in their place is computed here: the
status code of a response, its sent/not-sent reading, its error category and the `dropped` indication
(spec/60_exceptions.md R111, R112, R117). -/

namespace Sys2Proof.Machine

/-- The numeric code of a status (R111; log entry 13). -/
def Status.code : Status → Nat
  | .ok => 0
  | .notSentEmpty => 1
  | .notSentTooLong => 2
  | .notSentDisconnected => 3
  | .notSentShortWrite => 4
  | .rxDropped => 5

/-- The document's boolean result: "A client that needs only the document's boolean reads `status = OK`" (R111). -/
def Status.isOk : Status → Bool
  | .ok => true
  | .notSentEmpty => false
  | .notSentTooLong => false
  | .notSentDisconnected => false
  | .notSentShortWrite => false
  | .rxDropped => false

/-- The document's error taxonomy (R112; log entry 13). -/
def Status.category : Status → Option ErrorCategory
  | .ok => none
  | .notSentEmpty => some .malformedInput
  | .notSentTooLong => some .malformedInput
  | .notSentDisconnected => some .connectivity
  | .notSentShortWrite => some .connectivity
  | .rxDropped => some .overflow

/-- The status of a RECEIVE (R85, R111). -/
def receiveStatus (dropped : Bool) : Status := if dropped then .rxDropped else .ok

/-- The status of an ENCODE after the hand-off of a frame of `len` bytes of which Transport accepted `k` (R77). -/
def writeStatus (k len : Nat) : Status := if k = len then .ok else .notSentShortWrite

/-- A response that carries a status and nothing else: every response but RECEIVE's (R29, R70, R106). -/
def Resp.plain (st : Status) : Resp := ⟨st, [], false⟩

/-- The response of a RECEIVE (R85, R117): its frames, and the drop both in the status and in `dropped`. -/
def Resp.received (frames : List Bytes) (dropped : Bool) : Resp := ⟨receiveStatus dropped, frames, dropped⟩

end Sys2Proof.Machine
end

