-- ==== Sys2Proof/Machine/Operands.lean ====
section
/-! DEFINITION. The operand of a request is the byte sequence `data`, taken as it is (spec/30_encoding.md R62). The
tests a request makes on its operand and the byte-sequence operations of spec/00_scope.md R10 to R12 stand here. -/

namespace Sys2Proof.Machine

/-- The code of a character. -/
def asciiCode (c : Char) : Byte := BitVec.ofNat 8 c.toNat

/-- A quoted string "means the sequence of its ASCII codes" (R10). -/
def ascii (t : String) : Bytes := t.toList.map asciiCode

/-- `s[a..b)` (R10). -/
def slice (s : Bytes) (a b : Nat) : Bytes := (s.drop a).take (b - a)

/-- The least index of an occurrence of `m` in a sequence. -/
def findFirst (m : Bytes) : Bytes → Option Nat
  | [] => if m = [] then some 0 else none
  | b :: t => if m.isPrefixOf (b :: t) then some 0 else (findFirst m t).map (· + 1)

/-- `find(s, m, from)` (R12): the least index at or after `start` at which `m` occurs in `s`. -/
def find (s m : Bytes) (start : Nat) : Option Nat :=
  if start ≤ s.length then (findFirst m (s.drop start)).map (start + ·) else none

/-- The indices `i` and `j` of R90: the first start marker and the first end marker at or after `i + 2`. -/
def firstPair (cfg : Config) (b : Bytes) : Option (Nat × Nat) :=
  match find b cfg.startMark.bytes 0 with
  | none => none
  | some i =>
    match find b cfg.endMark.bytes (i + 2) with
    | none => none
    | some j => some (i, j)

/-- `hasPair` (R87). -/
def hasPair (cfg : Config) (b : Bytes) : Bool := (firstPair cfg b).isSome

/-- The command is empty (R72). -/
def cmdEmpty (cmd : Bytes) : Bool := cmd.length == 0

/-- The command does not fit the 16-bit length field (R73). -/
def cmdTooLong (cmd : Bytes) : Bool := decide (maxCmd < cmd.length)

/-- The chunk is over a bounded `P_MAX_CHUNK` (R88). -/
def chunkTooLong (cfg : Config) (chunk : Bytes) : Bool :=
  match cfg.maxChunk with
  | none => false
  | some m => decide (m < chunk.length)

/-- The residue is over the ceiling; the comparison is strict (R95). -/
def overflows (cfg : Config) (residue : Bytes) : Bool := decide (cfg.ceiling < residue.length)

/-- The capacity condition R41 puts on an implementation with a buffer of `cap` bytes and a bounded chunk. -/
def capacitySuffices (cfg : Config) (cap : Nat) : Bool :=
  match cfg.maxChunk with
  | none => false
  | some m => decide (cfg.ceiling + m ≤ cap)

end Sys2Proof.Machine
end

