-- ==== Sys2Proof/Machine/Ops.lean ====
section
/-! DEFINITION. The named operations over the state: the buffer primitives (spec/20_memory.md R42), the Transport
functions (spec/10_state.md R30), the response and refusal ports (R29, spec/60_exceptions.md R115), and what the
environment does at the ports. The block takes no exception and returns from none (R120, R121); the one shared
operation for a request without meaning is `State.refuse`. -/

namespace Sys2Proof.Machine

/-! ## Buffer primitives (R42) -/

/-- `Append(c)`. -/
def State.appendBuf (s : State) (c : Bytes) : State := { s with buf := s.buf ++ c }

/-- `Consume(n)`; its callers have `n <= len(buf)`. -/
def State.consumeBuf (s : State) (n : Nat) : State := { s with buf := s.buf.drop n }

/-- `Clear()`. -/
def State.clearBuf (s : State) : State := { s with buf := [] }

/-- `rs_state <- r` (R21). -/
def State.setRsState (s : State) (r : RsState) : State := { s with rsState := r }

/-! ## Transport, transmit side (R30) -/

/-- The draws of the next ENCODE: the answers the state lists, else the free values of this ENCODE (log entry 3). -/
def State.txDraw (s : State) : TxDraw :=
  match s.txDraws with
  | d :: _ => d
  | [] => ⟨Config.freeConnected s.txDrawn, Config.freeAccepted s.txDrawn⟩

/-- The draws of this ENCODE are taken. -/
def State.nextDraw (s : State) : State := { s with txDraws := s.txDraws.tail, txDrawn := s.txDrawn + 1 }

/-- A call to Transport enters the record of calls. -/
def State.logCall (s : State) (c : TransportCall) : State := { s with calls := s.calls ++ [c] }

/-- `TxConnected()`: the state after the sample; the sampled answer is `d.connected`. -/
def State.txConnected (s : State) (d : TxDraw) : State := s.logCall (.isConnected d.connected)

/-- How many bytes of `b` Transport accepts under the draws `d`: `0 <= k <= len(b)` (R30; log entry 8). -/
def TxDraw.acceptedOf (d : TxDraw) (b : Bytes) : Nat := min d.accepted b.length

/-- `TxWrite(b)`: the state after the hand-off; the answer is `d.acceptedOf b`. -/
def State.txWrite (s : State) (d : TxDraw) (b : Bytes) : State := s.logCall (.write b (d.acceptedOf b))

/-! ## Ends of a request (R29, R115) -/

/-- What became of the request enters the record of answers. -/
def State.logAnswer (s : State) (a : Answer) : State := { s with answers := s.answers ++ [a] }

/-- The sticky mark (R22). -/
def State.markRefused (s : State) : State := { s with refused := true }

/-- `return`: the request ends with its one response. -/
def State.respond (s : State) (r : Resp) : Host.Outcome State Fault Refusal := .next (s.logAnswer (.response r))

/-- `refuse(reason)` (R115): `refused <- true`, no other state change, no Transport call, no response. -/
def State.refuse (s : State) (why : RefuseReason) : Host.Outcome State Fault Refusal :=
  .next (s.markRefused.logAnswer (.refused why))

/-! ## The ports as the environment sees them -/

/-- The block has taken a request off the port; `rest` is what stands there now. -/
def State.setPort (s : State) (rest : Bytes) : State := { s with port := rest }

/-- The client presents bytes at the request port, after those it has presented before (R29). -/
def State.present (s : State) (bytes : Bytes) : State := s.setPort (s.port ++ bytes)

/-- Transport's answers to one more coming ENCODE (R30). -/
def State.supplyDraw (s : State) (d : TxDraw) : State := { s with txDraws := s.txDraws ++ [d] }

/-- The bytes Transport accepted in one call (R76). -/
def TransportCall.accepted : TransportCall → Bytes
  | .isConnected _ => []
  | .write b k => b.take k

/-- The frames one answer hands to the consumer (R32). -/
def Answer.frames : Answer → List Bytes
  | .response r => r.frames
  | .refused _ => []

/-- The wire: the bytes Transport accepted, in order. -/
def State.wire (s : State) : Bytes := s.calls.flatMap TransportCall.accepted

/-- The frame output: every TelemetryFrame handed to the consumer, in order (R32). -/
def State.framesOut (s : State) : List Bytes := s.answers.flatMap Answer.frames

end Sys2Proof.Machine
end

