-- ==== Sys2Proof/Machine/Control.lean ====
section
/-! DEFINITION. The control operations: RESET and the reserved and illegal requests (spec/42_control.md R106 to R110). -/

namespace Sys2Proof.Machine

/-- RESET (R106). It touches neither `refused` nor the configuration nor Transport. -/
def execReset (s : State) : Host.Outcome State Fault Refusal :=
  (s.clearBuf.setRsState .accumulating).respond (.plain .ok)

/-- ILLEGAL (R108): every reserved or illegal request, whatever its op byte and data, is refused. -/
def execReserved (_opb : Byte) (_data : Bytes) (s : State) : Host.Outcome State Fault Refusal :=
  s.refuse .illegalRequest

end Sys2Proof.Machine
end

