-- ==== Sys2Proof/Machine/FrameEncoder.lean ====
section
/-! DEFINITION. The Frame Encoder: the BinaryFrame (spec/30_encoding.md R52 to R58) and ENCODE
(spec/40_frame_encoder.md R70 to R84). -/

namespace Sys2Proof.Machine

/-- `be16` of a number (R11): bits 15..8, then bits 7..0. -/
def be16 (v : Nat) : Bytes := beBytes 2 v

/-- The 16-bit destination address, most significant byte first (R39; log entry 9). -/
def addr16Bytes (v : BitVec 16) : Bytes := beBytes 2 v.toNat

/-- `be64` of the 64-bit destination address, most significant byte first (R39; log entry 9). -/
def addr64Bytes (v : BitVec 64) : Bytes := beBytes 8 v.toNat

/-- The fixed part of the payload (R53), `HDR_LEN` bytes. -/
def header (cfg : Config) : Bytes :=
  [cfg.frameType, cfg.frameId] ++ addr64Bytes cfg.dest64 ++ addr16Bytes cfg.dest16 ++ [cfg.radius, cfg.options]

/-- `payload(cmd)` (R53). -/
def payload (cfg : Config) (cmd : Bytes) : Bytes := header cfg ++ cmd

/-- The sum of the bytes of a sequence, as an unbounded number (R9, R55). -/
def byteSum (p : Bytes) : Nat := (p.map BitVec.toNat).sum

/-- `chk(p)` (R55). -/
def checksum (p : Bytes) : Byte := BitVec.ofNat 8 (0xFF - byteSum p % 256)

/-- `frame(p)` (R52); no byte is escaped (R58; log entry 10). -/
def frame (p : Bytes) : Bytes := [startDelim] ++ be16 p.length ++ p ++ [checksum p]

/-- A well-formed BinaryFrame (R57). The block never parses one; the predicate is for claims and tests. -/
def wellFormedFrame : Bytes → Bool
  | f0 :: f1 :: f2 :: rest =>
    let len := f1.toNat * 256 + f2.toNat
    f0 == startDelim && rest.length == len + 1 && byteSum (rest.take (len + 1)) % 256 == 0xFF
  | _ => false

/-- ENCODE (R70). Each ENCODE has its own pair of draws, whichever exit it takes (R30; log entry 3). The tests stand
in the order of R116. -/
def execEncode (cmd : Bytes) (s : State) : Host.Outcome State Fault Refusal :=
  let d := s.txDraw
  let s₀ := s.nextDraw
  if cmdEmpty cmd then s₀.respond (.plain .notSentEmpty)
  else if cmdTooLong cmd then s₀.respond (.plain .notSentTooLong)
  else
    let s₁ := s₀.txConnected d
    if d.connected = false then s₁.respond (.plain .notSentDisconnected)
    else
      let f := frame (payload s.cfg cmd)
      (s₁.txWrite d f).respond (.plain (writeStatus (d.acceptedOf f) f.length))

end Sys2Proof.Machine
end

