-- ==== Sys2Proof/Machine/StreamReassembler.lean ====
section
/-! DEFINITION. The Stream Reassembler: RECEIVE and its micro-steps EXTRACT and DROP
(spec/41_stream_reassembler.md R85 to R105). -/

namespace Sys2Proof.Machine

/-- EXTRACT (R92, R93) for the pair at `i`, `j`: enter EXTRACTING, take the frame `buf[i+2 .. j)`, consume through the
end marker, return to ACCUMULATING. -/
def extractFrame (s : State) (i j : Nat) : Bytes × State :=
  let s₁ := s.setRsState .extracting
  (slice s₁.buf (i + 2) j, (s₁.consumeBuf (j + 2)).setRsState .accumulating)

/-- The extraction loop (R94): `while hasPair(buf)`, with the frames emitted so far in `out`. The fuel is the number of
extractions that may still happen; RECEIVE gives it the bound of R94 (log entry 21). -/
def extractAll : Nat → State → List Bytes → List Bytes × State
  | 0, s, out => (out, s)
  | fuel + 1, s, out =>
    match firstPair s.cfg s.buf with
    | none => (out, s)
    | some (i, j) =>
      let x := extractFrame s i j
      extractAll fuel x.2 (out ++ [x.1])

/-- DROP (R95): a residue over the ceiling is cleared. -/
def dropOverflow (s : State) : Bool × State :=
  if overflows s.cfg s.buf then (true, s.clearBuf) else (false, s)

/-- RECEIVE (R85). A refusal is decided before any state changes (R88, R117). -/
def execReceive (chunk : Bytes) (s : State) : Host.Outcome State Fault Refusal :=
  if chunkTooLong s.cfg chunk then s.refuse .chunkTooLong
  else
    let s₁ := (s.setRsState .accumulating).appendBuf chunk
    let x := extractAll (s₁.buf.length / 4) s₁ []
    let y := dropOverflow x.2
    y.2.respond (.received x.1 y.1)

end Sys2Proof.Machine
end

