-- ==== Sys2Proof/Machine/Dispatch.lean ====
section
/-! DEFINITION. One arm per constructor of `Instr`: the meaning of each request. -/

namespace Sys2Proof.Machine

def exec (i : Instr) (s : State) : Host.Outcome State Fault Refusal :=
  match i with
  | .encode cmd => Sys2Proof.Machine.execEncode cmd s
  | .receive chunk => Sys2Proof.Machine.execReceive chunk s
  | .reset => Sys2Proof.Machine.execReset s
  | .reserved opb data => Sys2Proof.Machine.execReserved opb data s

end Sys2Proof.Machine
end

