-- ==== Sys2Proof/Machine/Step.lean ====
section
/-! DEFINITION. One step of the block: one request, atomically (spec/00_scope.md R5, spec/10_state.md R34,
spec/20_memory.md R45). -/

namespace Sys2Proof.Machine

/-- Takes the first whole request off the port and executes it. While no whole request stands there the block has no
step (R64): the state stays as it is (log entry 1). -/
def step (s : State) : Host.Outcome State Fault Refusal :=
  match fetch s.port with
  | none => .next s
  | some (i, rest) => exec i (s.setPort rest)

/-- The request of a table word presented ahead of whatever stands at the port, so that the next step runs exactly it
(log entry 22). -/
def State.withFetchWord (s : State) (nbits w : Nat) : State := s.setPort (tableWordBytes nbits w ++ s.port)

end Sys2Proof.Machine
end

