-- ==== Sys2Proof/Machine/Assembler.lean ====
section
/-! DEFINITION. The text syntax of requests (spec/30_encoding.md R66): a line is read into a request and, for an
ENCODE, its Transport draws; its encoding is that of R60. A program is presented to the block line by line. There are
no pseudo-instructions (R67). -/

namespace Sys2Proof.Machine

/-- One line of a program: the request, and the draws its annotations name (an ENCODE has draws, the others none). -/
structure Line where
  instr : Instr
  draw : Option TxDraw
  deriving DecidableEq, Repr

/-- What follows the characters `w`, where a text opens with them. -/
def dropWord : List Char → List Char → Option (List Char)
  | [], cs => some cs
  | _ :: _, [] => none
  | a :: w, c :: cs => if a = c then dropWord w cs else none

/-- A hex digit: its place among the sixteen. R66 does not say of which case; either is read (log entry 30). -/
def hexDigit (c : Char) : Option Nat := "0123456789abcdef".toList.findIdx? (· == c.toLower)

/-- A decimal digit. -/
def decDigit (c : Char) : Option Nat := "0123456789".toList.findIdx? (· == c)

/-- A pair of hex digits, as a byte. -/
def hexByte (a b : Char) : Option Byte := do
  let x ← hexDigit a
  let y ← hexDigit b
  pure (BitVec.ofNat 8 (x * 16 + y))

/-- The rest of a quoted ASCII string, after its opening quote; `\xHH` stands for any byte. R66 names no other escape:
a backslash that `xHH` does not follow makes the line no line (DESIGN CHOICE, log entry 30). -/
def readQuoted : List Char → Option (Bytes × List Char)
  | [] => none
  | '"' :: r => some ([], r)
  | '\\' :: 'x' :: a :: b :: r => do
    let v ← hexByte a b
    let (vs, r') ← readQuoted r
    pure (v :: vs, r')
  | c :: r =>
    if c = '\\' ∨ 128 ≤ c.toNat then none
    else do
      let (vs, r') ← readQuoted r
      pure (asciiCode c :: vs, r')

/-- The rest of `x"..."`, after its opening quote: hex digit pairs. -/
def readHexPairs : List Char → Option (Bytes × List Char)
  | '"' :: r => some ([], r)
  | a :: b :: r => do
    let v ← hexByte a b
    let (vs, r') ← readHexPairs r
    pure (v :: vs, r')
  | _ => none

/-- Spaces between the parts of a line. -/
def skipSpaces : List Char → List Char
  | [] => []
  | c :: r => if c = ' ' then skipSpaces r else c :: r

/-- A decimal number read on from the value `acc`; at least one digit where `seen` is false. -/
def readDecimal : List Char → Nat → Bool → Option (Nat × List Char)
  | [], acc, seen => if seen then some (acc, []) else none
  | c :: r, acc, seen =>
    match decDigit c with
    | some d => readDecimal r (acc * 10 + d) true
    | none => if seen then some (acc, c :: r) else none

/-- The rest of `rep(<byte>, <count>)` after the byte. -/
def readRepCount (v : Byte) (r : List Char) : Option (Bytes × List Char) :=
  match skipSpaces r with
  | ',' :: r' =>
    match readDecimal (skipSpaces r') 0 false with
    | some (k, r'') =>
      match skipSpaces r'' with
      | ')' :: r''' => some (List.replicate k v, r''')
      | _ => none
    | none => none
  | _ => none

/-- The rest of `rep(<byte>, <count>)` after its bracket: the byte is two hex digits, with or without `0x`
(log entry 25), the count decimal. -/
def readRep (cs : List Char) : Option (Bytes × List Char) :=
  match (dropWord "0x".toList cs).getD cs with
  | a :: b :: r => do readRepCount (← hexByte a b) r
  | _ => none

/-- One `<bytes>` form. -/
def readForm (cs : List Char) : Option (Bytes × List Char) :=
  ((dropWord "\"".toList cs).bind readQuoted).or
    (((dropWord "x\"".toList cs).bind readHexPairs).or
      ((dropWord "rep(".toList cs).bind fun r => readRep (skipSpaces r)))

/-- `<bytes>` forms joined by `++`, at most `fuel` of them, and the text after the spaces that follow them. -/
def readBytes : Nat → List Char → Option (Bytes × List Char)
  | 0, _ => none
  | fuel + 1, cs => do
    let (v, r) ← readForm cs
    match dropWord "++".toList (skipSpaces r) with
    | some r' =>
      let (vs, r'') ← readBytes fuel (skipSpaces r')
      pure (v ++ vs, r'')
    | none => pure (v, skipSpaces r)

/-- `@conn=<0|1>`, or its default, connected. -/
def readConn (cs : List Char) : Option (Bool × List Char) :=
  match dropWord "@conn=".toList cs with
  | none => some (true, cs)
  | some r =>
    ((dropWord ['0'] r).map fun r' => (false, skipSpaces r')).or
      ((dropWord ['1'] r).map fun r' => (true, skipSpaces r'))

/-- `@acc=<k>`, or its default, the frame length of the command. -/
def readAcc (cmd : Bytes) (cs : List Char) : Option (Nat × List Char) :=
  match dropWord "@acc=".toList cs with
  | none => some (cmd.length + hdrLen + 4, cs)
  | some r => (readDecimal r 0 false).map fun x => (x.1, skipSpaces x.2)

/-- A line whose request an encoding exists for, with nothing left of its text. -/
def endLine (i : Instr) (d : Option TxDraw) (rest : List Char) : Option Line :=
  if rest = [] ∧ i.wellFormed = true then some ⟨i, d⟩ else none

/-- An ENCODE line after its word. -/
def readEncode (cs : List Char) : Option Line := do
  let (cmd, r₁) ← readBytes cs.length (skipSpaces cs)
  let (conn, r₂) ← readConn r₁
  let (acc, r₃) ← readAcc cmd r₂
  endLine (.encode cmd) (some ⟨conn, acc⟩) r₃

/-- A RECEIVE line after its word. -/
def readReceive (cs : List Char) : Option Line := do
  let (chunk, r) ← readBytes cs.length (skipSpaces cs)
  endLine (.receive chunk) none r

/-- A RESET line after its word. -/
def readReset (cs : List Char) : Option Line := endLine .reset none (skipSpaces cs)

/-- One line of a program: one of the three forms of R66. Any other text is no line (log entry 30). -/
def readLine (cs : List Char) : Option Line :=
  ((dropWord "ENCODE ".toList (skipSpaces cs)).bind readEncode).or
    (((dropWord "RECEIVE ".toList (skipSpaces cs)).bind readReceive).or
      ((dropWord "RESET".toList (skipSpaces cs)).bind readReset))

/-- Bytes as hex digit pairs, the high digit first (R66). -/
def hexText (data : Bytes) : List Char := data.flatMap fun b => [(b.toNat / 16).digitChar, (b.toNat % 16).digitChar]

/-- A number by its decimal digits, the first the most significant (R66's `<k>` and `<count>`). -/
def decimalText (ds : List (Fin 10)) : List Char := ds.map fun d => d.val.digitChar

/-- The number that decimal digits stand for. -/
def decimalValue (ds : List (Fin 10)) : Nat := ds.foldl (fun acc d => acc * 10 + d.val) 0

/-- The encoding of a line (R60, R66): the annotations are not part of it. -/
def Line.bytes (l : Line) : Bytes := encode l.instr

/-- A line's request is presented at the port, and its draws, if it has them, are what Transport will answer. -/
def State.presentLine (s : State) (l : Line) : State :=
  match l.draw with
  | none => s.present l.bytes
  | some d => (s.present l.bytes).supplyDraw d

/-- A program presented line by line; `none` where a line does not fit the syntax. -/
def State.presentProgram (s : State) : List String → Option State
  | [] => some s
  | t :: ts =>
    match readLine t.toList with
    | none => none
    | some l => (s.presentLine l).presentProgram ts

end Sys2Proof.Machine
end

