-- ==== Sys2Proof/Safety.lean ====
section
/-! DEFINITION. The terms claims are stated in: the boundary invariant (spec/10_state.md R36), runs of requests and of
steps, and what it is for a byte sequence to hold frames, said without the model's own search. -/

namespace Sys2Proof.Machine

/-- The boundary invariants I-1 to I-3 of R36. -/
structure State.Inv (s : State) : Prop where
  /-- I-1: no complete marker pair is left in `buf`. -/
  noPair : hasPair s.cfg s.buf = false
  /-- I-2: the residue respects the ceiling. -/
  bounded : s.buf.length ≤ s.cfg.ceiling
  /-- I-3: no extraction is under way. -/
  accumulating : s.rsState = .accumulating

/-- A run that carries claims: no request of it was refused (R115). -/
def State.Claimable (s : State) : Prop := s.refused = false

/-- Requests executed one after another, each on the state the one before left (R49). -/
def execAll : List Instr → State → Host.Outcome State Fault Refusal
  | [], s => .next s
  | i :: is, s =>
    match exec i s with
    | .next t => execAll is t
    | .fault r => .fault r
    | .refused r => .refused r

/-- `k` steps of the machine. -/
def stepN : Nat → State → Host.Outcome State Fault Refusal
  | 0, s => .next s
  | k + 1, s =>
    match step s with
    | .next t => stepN k t
    | .fault r => .fault r
    | .refused r => .refused r

/-- `b` holds a start marker and, after it, an end marker (R87), said by what the bytes are. -/
def HoldsPair (cfg : Config) (b : Bytes) : Prop :=
  ∃ x y z, b = x ++ cfg.startMark.bytes ++ y ++ cfg.endMark.bytes ++ z

/-- No start marker begins before the one that follows `noise`: none lies in `noise` and the first byte after it. -/
def NoEarlierStart (cfg : Config) (noise : Bytes) : Prop := ¬ cfg.startMark.bytes <:+: noise ++ [cfg.startMark.first]

/-- No end marker begins, at or after the byte following the start marker, before the one that follows the frame `f`. -/
def NoEarlierEnd (cfg : Config) (f : Bytes) : Prop := ¬ cfg.endMark.bytes <:+: f ++ [cfg.endMark.first]

/-- `b` is noise, the first start marker, the frame `f`, the first end marker after that, and `tail` (R90, R93). -/
def FirstFrame (cfg : Config) (b noise f tail : Bytes) : Prop :=
  b = noise ++ cfg.startMark.bytes ++ f ++ cfg.endMark.bytes ++ tail ∧ NoEarlierStart cfg noise ∧ NoEarlierEnd cfg f

/-- `b` is, in order, noise, a start marker, a frame and an end marker for each frame of the list, then a residue
without a pair; each start marker is the first one left and each end marker the first one after its start marker
(R90, R91, R93, R94, R96), said by what the bytes are. -/
def Segmented (cfg : Config) : Bytes → List Bytes → Bytes → Prop
  | b, [], residue => b = residue ∧ ¬ HoldsPair cfg residue
  | b, f :: fs, residue => ∃ noise tail, FirstFrame cfg b noise f tail ∧ Segmented cfg tail fs residue

/-- The span of R131: from the first byte of the noise before a frame's start marker to the first byte of its end
marker, inclusive. -/
def frameSpan (noise f : Bytes) : Nat := noise.length + 2 + f.length + 1

/-- `Segmented`, with the span of every frame within the ceiling (R131). -/
def SegmentedWithinCeiling (cfg : Config) : Bytes → List Bytes → Bytes → Prop
  | b, [], residue => b = residue ∧ ¬ HoldsPair cfg residue
  | b, f :: fs, residue => ∃ noise tail, FirstFrame cfg b noise f tail ∧ frameSpan noise f ≤ cfg.ceiling ∧
      SegmentedWithinCeiling cfg tail fs residue

/-- The configuration admits every chunk of the list (R88). -/
def ChunksAdmitted (cfg : Config) (cs : List Bytes) : Prop := ∀ c ∈ cs, ∀ m, cfg.maxChunk = some m → c.length ≤ m

/-- The answers that stand in `t` after those of `s`. -/
def newAnswers (s t : State) : List Answer := t.answers.drop s.answers.length

/-- The frames handed to the consumer between `s` and `t`. -/
def newFrames (s t : State) : List Bytes := (newAnswers s t).flatMap Answer.frames

/-- The calls made to Transport between `s` and `t`. -/
def newCalls (s t : State) : List TransportCall := t.calls.drop s.calls.length

end Sys2Proof.Machine
end

