-- ==== Sys2Proof/Certificates/Slice0/Obligations.lean ====
section
/-! DEFINITION. The statements about the model that the provers settle. Each docstring names the rule of spec/ it
formalises; where a clause is the spec's own decision (92_eei_decisions.md) or the model's, it says so. -/

open Sys2Proof Sys2Proof.Machine

/-! ## Requests and their encoding (30_encoding.md section 3) -/

/-- Every well-formed request, with any operand bytes its length field admits, is read back from its encoding
(30_encoding.md section 3; the encoding is the spec's decision D2). -/
def Obligations.DecodeReadsBackEveryEncodedRequest : Prop :=
  ∀ i : Instr, i.wellFormed = true → decode (encode i) = .ok i

/-- Every byte sequence that decodes to a request is that request's encoding, and the request is well-formed: no two
byte sequences are read as one request (30_encoding.md section 3, D2). -/
def Obligations.EncodeRestoresTheDecodedBytes : Prop :=
  ∀ (r : Bytes) (i : Instr), decode r = .ok i → i.wellFormed = true ∧ encode i = r

/-- The decoder's answer for every byte sequence, case by case as in the pseudocode of 30_encoding.md section 3 (D2);
ILLEGAL is the opcode table's RESERVED. -/
def Obligations.DecoderSortsEveryByteSequence : Prop :=
  (∀ r : Bytes, r.length < 5 → decode r = .incomplete) ∧
  ∀ (opb b1 b2 b3 b4 : Byte) (data : Bytes) (n : Nat),
    n = b1.toNat * 2 ^ 24 + b2.toNat * 2 ^ 16 + b3.toNat * 2 ^ 8 + b4.toNat →
    (data.length < n → decode (opb :: b1 :: b2 :: b3 :: b4 :: data) = .incomplete) ∧
    (n < data.length → decode (opb :: b1 :: b2 :: b3 :: b4 :: data) = .trailing) ∧
    (data.length = n →
      (opb = 0x01 → decode (opb :: b1 :: b2 :: b3 :: b4 :: data) = .ok (.encode data)) ∧
      (opb = 0x02 → decode (opb :: b1 :: b2 :: b3 :: b4 :: data) = .ok (.receive data)) ∧
      (opb = 0x03 → n = 0 → decode (opb :: b1 :: b2 :: b3 :: b4 :: data) = .ok .reset) ∧
      (opb = 0x03 → n ≠ 0 → decode (opb :: b1 :: b2 :: b3 :: b4 :: data) = .ok (.reserved opb data)) ∧
      (opb ≠ 0x01 → opb ≠ 0x02 → opb ≠ 0x03 →
        decode (opb :: b1 :: b2 :: b3 :: b4 :: data) = .ok (.reserved opb data)))

/-- Words written out from the tables of 30_encoding.md section 3 and 95_test_vectors.md V2.3 decode to the requests
they stand for. -/
def Obligations.SampleRequestWordsDecode : Prop :=
  decode [0x01, 0x00, 0x00, 0x00, 0x02, 0x41, 0x42] = .ok (.encode [0x41, 0x42]) ∧
  decode [0x02, 0x00, 0x00, 0x00, 0x03, 0x6E, 0x6F, 0x69] = .ok (.receive [0x6E, 0x6F, 0x69]) ∧
  decode [0x03, 0x00, 0x00, 0x00, 0x00] = .ok .reset ∧
  decode [0x00, 0x00, 0x00, 0x00, 0x00] = .ok (.reserved 0x00 []) ∧
  decode [0x81, 0x00, 0x00, 0x00, 0x01, 0x41] = .ok (.reserved 0x81 [0x41]) ∧
  decode [0x03, 0x00, 0x00, 0x00, 0x01, 0xFF] = .ok (.reserved 0x03 [0xFF]) ∧
  decode [0x02, 0x00, 0x00] = .incomplete ∧
  decode ([0x03, 0x00, 0x00, 0x00, 0x00] ++ [0x03, 0x00, 0x00, 0x00, 0x00]) = .trailing

/-- A step runs the request that stands first at the port: the bytes of that request are taken off the port, whatever
follows them stays, and the step is the request's meaning on that state. That the port is one stream of bytes of which
a step takes the first whole request is the model's choice (log entry 24): the spec has the client do that split and
presents one request at a time. -/
def Obligations.StepRunsThePresentedRequest : Prop :=
  ∀ (i : Instr) (rest : Bytes) (s : State), i.wellFormed = true → s.port = encode i ++ rest →
    step s = exec i { s with port := rest }

/-- While the request at the port has not arrived in full the block has no step (30_encoding.md section 3). That the
machine's step then leaves the state as it is, is the model's choice (log entry 1). -/
def Obligations.StepWaitsForAnIncompleteRequest : Prop :=
  ∀ s : State, decode s.port = .incomplete → step s = .next s

/-- A table word's instruction is what the next step runs, on a state whose port is otherwise as it was: the model's
way to place a request at the port (log entry 22). -/
def Obligations.TableWordIsRunByTheNextStep : Prop :=
  ∀ (nbits w : Nat) (i : Instr) (s : State), decodeTableWord nbits w = some i →
    step (s.withFetchWord nbits w) = exec i s

/-- Requests take effect one at a time, in the order the client presents them, each on the state the one before left
(20_memory.md sections 3 and 5). That several encodings may stand in the one port stream, which the block splits
itself, is the model's choice (log entry 24). -/
def Obligations.PresentedRequestsRunInOrder : Prop :=
  ∀ (is : List Instr) (rest : Bytes) (s : State), (∀ i ∈ is, i.wellFormed = true) →
    s.port = is.flatMap encode ++ rest → stepN is.length s = execAll is { s with port := rest }

/-! ## The whole machine -/

/-- After a request that ended with a response, whatever its status, the refusal mark is as it was, and a whole request
that then stands at the port is taken off it, executed and answered (60_exceptions.md section 1). That the port is a
byte stream whose first whole request a step takes is the model's choice (log entry 24), and so is the answer's entry
in the record (log entries 2 and 4). An incomplete port is not spoken of here. -/
def Obligations.NoStatusIsFatal : Prop :=
  ∀ (i : Instr) (s t : State) (r : Resp), exec i s = .next t → newAnswers s t = [.response r] →
    t.refused = s.refused ∧
    ∀ (j : Instr) (rest : Bytes), j.wellFormed = true → t.port = encode j ++ rest →
      step t = exec j { t with port := rest } ∧
      ∃ u a, step t = .next u ∧ u.port = rest ∧ u.answers = t.answers ++ [a]

/-- The model's choice (log entries 1 and 2): every step from every state answers a next state. It waits, changing
nothing, exactly while the request at the port has not arrived in full (log entry 1), and else executes one request and
records one answer, also where the spec refuses the request (log entry 2). The spec's part: the block stops on nothing
(60_exceptions.md sections 1 and 2). -/
def Obligations.EveryStepAnswersANextState : Prop :=
  ∀ s : State, ∃ t, step s = .next t ∧
    ((decode s.port = .incomplete ∧ t = s) ∨ (decode s.port ≠ .incomplete ∧ ∃ a, t.answers = s.answers ++ [a]))

/-- Every request is answered once: by one response, whose `frames` are empty and whose `dropped` is false for every
operation but RECEIVE, with `dropped` set exactly with the status RX_DROPPED; or, where the spec refuses it, by no
response, with the mark set (10_state.md section 3, 60_exceptions.md section 2; the mark is the spec's decision D22).
That a refused request completes as a next state with an entry of its own in the record of answers is the model's
choice (log entries 2 and 4). -/
def Obligations.EveryRequestIsAnsweredOnce : Prop :=
  ∀ (i : Instr) (s : State), ∃ t a, exec i s = .next t ∧ t.answers = s.answers ++ [a] ∧
    ((∃ why, a = .refused why ∧ t.refused = true) ∨
     (∃ r, a = .response r ∧ (r.dropped = true ↔ r.status = .rxDropped) ∧
       ((∀ chunk, i ≠ .receive chunk) → r.frames = [] ∧ r.dropped = false)))

/-- The boundary invariants I-1, I-2, I-3 of 10_state.md section 4 are kept by every step, from every state that meets
them. -/
def Obligations.BoundaryInvariantKeptByEveryStep : Prop :=
  ∀ s t : State, s.Inv → step s = .next t → t.Inv

/-- Power-on reset leaves an empty buffer, ACCUMULATING, no refusal and the configuration as given, and meets the
boundary invariants (10_state.md section 5, the spec's decisions D17 and D22; log entry 26). State.reset is that state
with the default configuration of 00_scope.md section 3: the header values are the spec's decision D3 (log entry 6),
the ceiling of 10240 bytes D12 (log entry 17), the unbounded chunk D16 (log entry 16), the marker codes ASCII (log
entry 27). -/
def Obligations.PowerOnStateMeetsTheBoundaryInvariant : Prop :=
  (∀ cfg : Config, (State.powerOn cfg).cfg = cfg ∧ (State.powerOn cfg).buf = [] ∧
    (State.powerOn cfg).rsState = .accumulating ∧ (State.powerOn cfg).refused = false ∧ (State.powerOn cfg).Inv) ∧
  State.reset = State.powerOn State.reset.cfg ∧ State.reset.Inv ∧
  State.reset.cfg.frameType = 0x10 ∧ State.reset.cfg.frameId = 0x01 ∧
  State.reset.cfg.dest64 = 0x000000000000FFFF ∧ State.reset.cfg.dest16 = 0xFFFE ∧
  State.reset.cfg.radius = 0x00 ∧ State.reset.cfg.options = 0x00 ∧
  State.reset.cfg.ceiling = 10240 ∧ State.reset.cfg.maxChunk = none ∧
  State.reset.cfg.startMark.bytes = ascii "/*" ∧ State.reset.cfg.endMark.bytes = ascii "*/"

/-- The refusal mark after a step is set exactly where it was set before or the step's request was refused; nothing
clears it (10_state.md section 1, 60_exceptions.md section 2, the spec's decision D22). That a refused request is a step
to a next state with an entry in the record of answers is the model's choice (log entries 2 and 4). -/
def Obligations.RefusalMarkIsSticky : Prop :=
  ∀ s t : State, step s = .next t →
    (t.refused = true ↔ s.refused = true ∨ ∃ why, newAnswers s t = [.refused why])

/-- The mark tells a whole run: where it is clear after any number of steps, it was clear before them and every request
they executed was answered by a response (60_exceptions.md section 2, the spec's decision D22). That a run goes on
after a refused request, recorded beside the responses, is the model's choice (log entries 2 and 4). -/
def Obligations.ClaimableRunRefusedNothing : Prop :=
  ∀ (k : Nat) (s t : State), stepN k s = .next t → t.Claimable →
    s.Claimable ∧ ∃ new, t.answers = s.answers ++ new ∧ ∀ a ∈ new, ∃ r, a = .response r

/-- The configuration does not change while the block runs (00_scope.md section 3). -/
def Obligations.ConfigurationIsNeverWritten : Prop :=
  ∀ (k : Nat) (s t : State), stepN k s = .next t → t.cfg = s.cfg

/-- The buffer after a request is the old one, or empty, or what is left of the old one with a RECEIVE's chunk
appended after bytes were consumed from its front; only RECEIVE and RESET write it (20_memory.md section 2, 10_state.md
section 1). -/
def Obligations.BufferChangesOnlyByItsPrimitives : Prop :=
  ∀ (i : Instr) (s t : State), exec i s = .next t →
    t.buf = s.buf ∨ (i = .reset ∧ t.buf = []) ∨
      ∃ chunk, i = .receive chunk ∧ (t.buf = [] ∨ ∃ n ≤ (s.buf ++ chunk).length, t.buf = (s.buf ++ chunk).drop n)

/-- Only ENCODE reads Transport's answers and calls Transport: the other requests do the same whatever the answers are
and leave the record of calls and the answers to come alone (10_state.md sections 3 and 4). That a request the spec
refuses completes as a next state too is the model's choice (log entry 2), and so are the list of answers to come with
its counter (log entry 3) and the record of calls (log entry 4). -/
def Obligations.OnlyEncodeTouchesTransport : Prop :=
  ∀ (i : Instr) (s : State) (ds : List TxDraw) (n : Nat), (∀ cmd, i ≠ .encode cmd) →
    ∃ t, exec i s = .next t ∧ t.calls = s.calls ∧ t.txDraws = s.txDraws ∧ t.txDrawn = s.txDrawn ∧
      exec i { s with txDraws := ds, txDrawn := n } = .next { t with txDraws := ds, txDrawn := n }

/-- The status codes and the error categories of 60_exceptions.md section 1 (numbers and the placing of
NOT_SENT_TOO_LONG and NOT_SENT_SHORT_WRITE are the spec's decision D8). -/
def Obligations.StatusCodesAndCategories : Prop :=
  [Status.ok, .notSentEmpty, .notSentTooLong, .notSentDisconnected, .notSentShortWrite, .rxDropped].map Status.code
    = [0, 1, 2, 3, 4, 5] ∧
  [Status.notSentEmpty, .notSentTooLong, .notSentDisconnected, .notSentShortWrite, .rxDropped].map Status.category
    = [some .malformedInput, some .malformedInput, some .connectivity, some .connectivity, some .overflow] ∧
  ∀ st : Status, st.isOk = true ↔ st = .ok

/-! ## The Frame Encoder (40_frame_encoder.md) -/

/-- ENCODE completes on every command in every state, with the exits of R70 in the order of its tests, the response
without frames and without a drop, and the Transport calls it makes on each exit: none, the sample alone, or the sample
and one hand-off of the whole frame of which Transport accepts `k <= len(F)` bytes, `k` being the draw wherever that
lies in the range. -/
def Obligations.EncodeTakesTheExitsInOrder : Prop :=
  ∀ (cmd : Bytes) (s : State), ∃ t st, exec (.encode cmd) s = .next t ∧
    t.answers = s.answers ++ [.response ⟨st, [], false⟩] ∧
    (cmd.length = 0 → st = .notSentEmpty ∧ t.calls = s.calls) ∧
    (65521 < cmd.length → st = .notSentTooLong ∧ t.calls = s.calls) ∧
    (0 < cmd.length → cmd.length ≤ 65521 → s.txDraw.connected = false →
      st = .notSentDisconnected ∧ t.calls = s.calls ++ [.isConnected false]) ∧
    (0 < cmd.length → cmd.length ≤ 65521 → s.txDraw.connected = true →
      ∃ p f k, p = payload s.cfg cmd ∧ f = [0x7E] ++ be16 p.length ++ p ++ [checksum p] ∧ k ≤ f.length ∧
        (s.txDraw.accepted ≤ f.length → k = s.txDraw.accepted) ∧
        t.calls = s.calls ++ [.isConnected true, .write f k] ∧
        (k = f.length → st = .ok) ∧ (k < f.length → st = .notSentShortWrite))

/-- The frame of ENCODE: the buffer, the Reassembler's state and the refusal mark are unchanged on every exit
(40_frame_encoder.md, ENCODE), and so are the configuration and the port. Of the model's own fields, one answer is
added, at most two calls are added, and the draw of this ENCODE is taken on every exit: that the draw is taken also
where Transport is not called is the model's choice (log entry 3). -/
def Obligations.EncodeLeavesTheStateUnchanged : Prop :=
  ∀ (cmd : Bytes) (s t : State), exec (.encode cmd) s = .next t →
    t.buf = s.buf ∧ t.rsState = s.rsState ∧ t.refused = s.refused ∧ t.cfg = s.cfg ∧ t.port = s.port ∧
    t.txDraws = s.txDraws.tail ∧ t.txDrawn = s.txDrawn + 1 ∧ (∃ a, t.answers = s.answers ++ [a]) ∧
    (t.calls = s.calls ∨ (∃ c, t.calls = s.calls ++ [.isConnected c]) ∨
      ∃ k, t.calls = s.calls ++ [.isConnected true, .write (frame (payload s.cfg cmd)) k])

/-- The BinaryFrame of a payload, byte by byte (R52): the start delimiter, the length of the payload with its most
significant byte first (R38), the payload, and the checksum `0xFF - (sum mod 256)` over every byte of it (R55). -/
def Obligations.BinaryFrameBytesByOffset : Prop :=
  ∀ p : Bytes, p.length ≤ 65535 →
    (frame p).length = p.length + 4 ∧
    (frame p)[0]? = some 0x7E ∧
    (frame p)[1]? = some (BitVec.ofNat 8 (p.length / 256)) ∧
    (frame p)[2]? = some (BitVec.ofNat 8 (p.length % 256)) ∧
    (∀ k < p.length, (frame p)[3 + k]? = p[k]?) ∧
    ∃ c : Byte, (frame p)[3 + p.length]? = some c ∧ c.toNat = 0xFF - (p.map BitVec.toNat).sum % 256

/-- The payload field by field (30_encoding.md section 1): the configuration's six values in the document's order and
sizes, then the command bytes. The most-significant-first order of the addresses is the spec's decision D4. -/
def Obligations.PayloadFieldsByOffset : Prop :=
  ∀ (cfg : Config) (cmd : Bytes),
    (payload cfg cmd).length = 14 + cmd.length ∧
    (payload cfg cmd)[0]? = some cfg.frameType ∧
    (payload cfg cmd)[1]? = some cfg.frameId ∧
    (∀ k < 8, (payload cfg cmd)[2 + k]? = some (cfg.dest64.extractLsb' (56 - 8 * k) 8)) ∧
    (∀ k < 2, (payload cfg cmd)[10 + k]? = some (cfg.dest16.extractLsb' (8 - 8 * k) 8)) ∧
    (payload cfg cmd)[12]? = some cfg.radius ∧
    (payload cfg cmd)[13]? = some cfg.options ∧
    ∀ k < cmd.length, (payload cfg cmd)[14 + k]? = cmd[k]?

/-- Every frame ENCODE hands to Transport is a well-formed BinaryFrame of `len(cmd) + 18` bytes, and Transport accepts
at most all of it (40_frame_encoder.md, the checksum property; 30_encoding.md section 1). -/
def Obligations.EveryHandedFrameIsWellFormed : Prop :=
  ∀ (cmd : Bytes) (s t : State) (f : Bytes) (k : Nat), exec (.encode cmd) s = .next t →
    TransportCall.write f k ∈ newCalls s t →
    wellFormedFrame f = true ∧ f.length = cmd.length + 18 ∧ k ≤ f.length

/-- The equivalent forms of the checksum (30_encoding.md section 1): the bitwise complement of the sum's low byte, and
the byte that completes the sum to `0xFF`. -/
def Obligations.ChecksumComplementsTheSum : Prop :=
  ∀ p : Bytes, checksum p = ~~~ BitVec.ofNat 8 (p.map BitVec.toNat).sum ∧
    ((p.map BitVec.toNat).sum + (checksum p).toNat) % 256 = 0xFF

/-- Commands whose bytes are permutations of each other have the same checksum (40_frame_encoder.md, corner case (h)). -/
def Obligations.ChecksumIgnoresByteOrder : Prop :=
  ∀ (cfg : Config) (cmd cmd' : Bytes), cmd.Perm cmd' → checksum (payload cfg cmd) = checksum (payload cfg cmd')

/-- The frame is a function of the command and the configuration alone: two ENCODEs of one command, in any two states
with the same configuration, hand over the same frame (40_frame_encoder.md, purity of frame construction). -/
def Obligations.HandedFrameDependsOnCommandAndConfigurationOnly : Prop :=
  ∀ (cmd : Bytes) (s s' t t' : State) (f f' : Bytes) (k k' : Nat), s.cfg = s'.cfg →
    exec (.encode cmd) s = .next t → exec (.encode cmd) s' = .next t' →
    TransportCall.write f k ∈ newCalls s t → TransportCall.write f' k' ∈ newCalls s' t' → f = f'

/-- Successive ENCODEs of commands that reach Transport put on the wire, in ENCODE order, the accepted prefix of each
frame: the rest of a short write is never sent and its prefix is not recalled (20_memory.md section 5,
70_reset_and_hazards.md section 3; no retry is the spec's decision D9). That Transport's answers are a list of which
each ENCODE takes one entry is the model's choice (log entry 3), that an answer over the frame's length counts as the
whole frame (log entry 8), and that the wire is read off a record of calls (log entry 4). -/
def Obligations.WireHoldsTheAcceptedPrefixesInOrder : Prop :=
  ∀ (cmds : List Bytes) (ds more : List TxDraw) (s : State),
    (∀ c ∈ cmds, 0 < c.length ∧ c.length ≤ 65521) → (∀ d ∈ ds, d.connected = true) →
    cmds.length = ds.length → s.txDraws = ds ++ more →
    ∃ t, execAll (cmds.map .encode) s = .next t ∧ t.txDraws = more ∧
      t.wire = s.wire ++ (List.zipWith (fun c d => (frame (payload s.cfg c)).take d.accepted) cmds ds).flatten

/-- The document's example command under the default configuration, connected and accepted in full: the 38 bytes of
40_frame_encoder.md's worked example (its header values are the defaults of the spec's decision D3, log entry 6). That
the records of answers and calls start empty is the model's choice (log entry 7), and so are these records (log entry
4) and the list that holds Transport's answer (log entry 3). -/
def Obligations.ExampleCommandGivesTheWorkedFrame : Prop :=
  ∃ t, exec (.encode (ascii "CMD,1026,SIM,ENABLE;")) { State.reset with txDraws := [⟨true, 38⟩] } = .next t ∧
    t.answers = [.response ⟨.ok, [], false⟩] ∧
    t.wire = [0x7E, 0x00, 0x22, 0x10, 0x01] ++ List.replicate 6 0x00 ++ [0xFF, 0xFF] ++ [0xFF, 0xFE] ++ [0x00, 0x00] ++
      ascii "CMD,1026,SIM,ENABLE;" ++ [0x07]

/-! ## Encoder and reassembler -/

/-- The encoder and the reassembler share no state (00_scope.md section 5). An ENCODE does the same whatever the buffer
and the Reassembler's state are, and writes neither. A RECEIVE does the same whatever the encoder uses (its header
values, Transport's answers, the record of calls), and writes none of it; of the configuration, which is no state, it
reads the ceiling, the chunk bound and the markers only (41_stream_reassembler.md, RECEIVE and the pair predicate). That
a RECEIVE the spec refuses completes as a next state too is the model's choice (log entry 2), and so are the list of
Transport's answers with its counter (log entry 3) and the record of calls (log entry 4). -/
def Obligations.EncoderAndReassemblerShareNoState : Prop :=
  (∀ (cmd : Bytes) (s : State) (b : Bytes) (r : RsState), ∃ t, exec (.encode cmd) s = .next t ∧
    t.buf = s.buf ∧ t.rsState = s.rsState ∧
    exec (.encode cmd) { s with buf := b, rsState := r } = .next { t with buf := b, rsState := r }) ∧
  ∀ (chunk : Bytes) (s : State) (cfg : Config) (ds : List TxDraw) (n : Nat) (cs : List TransportCall),
    cfg.ceiling = s.cfg.ceiling → cfg.maxChunk = s.cfg.maxChunk → cfg.startMark = s.cfg.startMark →
    cfg.endMark = s.cfg.endMark →
    ∃ t, exec (.receive chunk) s = .next t ∧
      t.cfg = s.cfg ∧ t.txDraws = s.txDraws ∧ t.txDrawn = s.txDrawn ∧ t.calls = s.calls ∧
      exec (.receive chunk) { s with cfg := cfg, txDraws := ds, txDrawn := n, calls := cs }
        = .next { t with cfg := cfg, txDraws := ds, txDrawn := n, calls := cs }

/-- The relative order of an ENCODE and a RECEIVE changes no output of either (20_memory.md section 5 (c)). That both
orders complete with an entry for each request, also where the RECEIVE is refused, is the model's choice (log entries 2
and 4), and so is the list of Transport's answers of which the ENCODE takes one (log entry 3). -/
def Obligations.EncodeAndReceiveCommute : Prop :=
  ∀ (cmd chunk : Bytes) (s : State), ∃ t u, execAll [.encode cmd, .receive chunk] s = .next t ∧
    execAll [.receive chunk, .encode cmd] s = .next u ∧
    t.buf = u.buf ∧ t.rsState = u.rsState ∧ t.refused = u.refused ∧ t.calls = u.calls ∧ t.wire = u.wire ∧
    t.framesOut = u.framesOut ∧ t.txDraws = u.txDraws ∧ ∃ a b, newAnswers s t = [a, b] ∧ newAnswers s u = [b, a]

/-! ## The Stream Reassembler (41_stream_reassembler.md) -/

/-- RECEIVE, whole (41_stream_reassembler.md, RECEIVE). A chunk over a bounded P_MAX_CHUNK is refused: the mark is set
and no other state of the spec changes (decision D22); that this is a next state with an entry in the record of answers
is the model's choice (log entry 2). Any other RECEIVE completes: the old buffer with the chunk appended is a sequence
of frames between markers and a residue without a pair, each start marker the first one left and each end marker the
first one after it; those frames are the response's, in order; and the residue stays in the buffer with status OK, or,
where it is over the ceiling, is cleared with status RX_DROPPED. -/
def Obligations.ReceiveExtractsEveryFrameThenDrops : Prop :=
  ∀ (chunk : Bytes) (s : State),
    ((∃ m, s.cfg.maxChunk = some m ∧ m < chunk.length) →
      exec (.receive chunk) s = .next { s with refused := true, answers := s.answers ++ [.refused .chunkTooLong] }) ∧
    ((∀ m, s.cfg.maxChunk = some m → chunk.length ≤ m) →
      ∃ t fs residue, exec (.receive chunk) s = .next t ∧ Segmented s.cfg (s.buf ++ chunk) fs residue ∧
        t.rsState = .accumulating ∧
        ((residue.length ≤ s.cfg.ceiling ∧ t.buf = residue ∧ t.answers = s.answers ++ [.response ⟨.ok, fs, false⟩]) ∨
         (s.cfg.ceiling < residue.length ∧ t.buf = [] ∧
           t.answers = s.answers ++ [.response ⟨.rxDropped, fs, true⟩])))

/-- The other direction: whichever way the bytes are cut into noise, first markers, frames and a residue without a
pair, RECEIVE emits exactly those frames and keeps exactly that residue, if it is within the ceiling
(41_stream_reassembler.md, EXTRACT; which markers bound a frame is the spec's decision D10). -/
def Obligations.ReceiveEmitsTheFramesOfAnySegmentation : Prop :=
  ∀ (chunk : Bytes) (s : State) (fs : List Bytes) (residue : Bytes),
    (∀ m, s.cfg.maxChunk = some m → chunk.length ≤ m) → Segmented s.cfg (s.buf ++ chunk) fs residue →
    residue.length ≤ s.cfg.ceiling →
    ∃ t, exec (.receive chunk) s = .next t ∧ t.buf = residue ∧ t.answers = s.answers ++ [.response ⟨.ok, fs, false⟩]

/-- The frame of RECEIVE (41_stream_reassembler.md, state and flags written): it writes the buffer and the Reassembler's
state only, holds no flag, and its only exits are OK, RX_DROPPED and the refusal, which sets the mark and writes
neither. That the refusal is a next state with an entry in the record of answers is the model's choice (log entries 2
and 4). -/
def Obligations.ReceiveWritesBufferAndStateOnly : Prop :=
  ∀ (chunk : Bytes) (s t : State), exec (.receive chunk) s = .next t →
    t.cfg = s.cfg ∧ t.port = s.port ∧ t.calls = s.calls ∧ t.txDraws = s.txDraws ∧ t.txDrawn = s.txDrawn ∧
    ((t.refused = s.refused ∧ ∃ fs, t.answers = s.answers ++ [.response ⟨.ok, fs, false⟩] ∨
        t.answers = s.answers ++ [.response ⟨.rxDropped, fs, true⟩]) ∨
     (t.refused = true ∧ t.buf = s.buf ∧ t.rsState = s.rsState ∧
        t.answers = s.answers ++ [.refused .chunkTooLong]))

/-- Chunk invariance, with its condition (41_stream_reassembler.md, properties; 90_conflicts.md C3): where no RECEIVE of
a chunked delivery drops or is refused, one RECEIVE of the concatenation, from the same start, completes with the same
frames in the same order, the same final buffer and no drop. The concatenation must itself be a chunk the
configuration admits. -/
def Obligations.ChunkingDoesNotChangeTheFrames : Prop :=
  ∀ (c : Bytes) (cs : List Bytes) (s t : State),
    (∀ m, s.cfg.maxChunk = some m → (c :: cs).flatten.length ≤ m) →
    execAll ((c :: cs).map .receive) s = .next t →
    (∀ a ∈ newAnswers s t, ∃ fs, a = .response ⟨.ok, fs, false⟩) →
    ∃ u fs, exec (.receive (c :: cs).flatten) s = .next u ∧ newAnswers s u = [.response ⟨.ok, fs, false⟩] ∧
      fs = newFrames s t ∧ u.buf = t.buf ∧ u.rsState = t.rsState

/-- The frame-size hazard, safe side (70_reset_and_hazards.md section 3), for one frame, from every state, its buffer
holding any residue. The bytes up to `pre` are consumed by the RECEIVE of the first chunk, which delivers their frames;
the count starts there: at the buffer's first byte where `pre` is empty (after a drop, a reset or an earlier
extraction), or after the end marker consumed last, in the middle of the chunk. Where the span from there to the first
byte of the next frame's end marker is at most the ceiling, that frame is delivered next, for every chunking of what
follows into chunks the configuration admits. -/
def Obligations.FrameWithinTheCeilingSurvivesEveryChunking : Prop :=
  ∀ (s : State) (c : Bytes) (cs fs : List Bytes) (pre b noise f tail : Bytes),
    s.buf ++ (c :: cs).flatten = pre ++ b → pre.length ≤ (s.buf ++ c).length → Segmented s.cfg pre fs [] →
    FirstFrame s.cfg b noise f tail → frameSpan noise f ≤ s.cfg.ceiling → ChunksAdmitted s.cfg (c :: cs) →
    ∃ t more, execAll ((c :: cs).map .receive) s = .next t ∧ newFrames s t = fs ++ f :: more

/-- The frame-size hazard, safe side, for every frame of a stream (70_reset_and_hazards.md section 3): from a buffer
without a pair, as every boundary state has it (10_state.md section 4, I-1), where each frame's span, counted from the
byte after the end marker before it, is at most the ceiling, every chunking into chunks the configuration admits
delivers exactly those frames, each once and in order; the bytes after the last of them may be dropped. -/
def Obligations.EveryFrameWithinTheCeilingIsDelivered : Prop :=
  ∀ (s : State) (cs fs : List Bytes) (residue : Bytes), hasPair s.cfg s.buf = false →
    SegmentedWithinCeiling s.cfg (s.buf ++ cs.flatten) fs residue → ChunksAdmitted s.cfg cs →
    ∃ t, execAll (cs.map .receive) s = .next t ∧ newFrames s t = fs

/-- The frame-size hazard, unsafe side (70_reset_and_hazards.md section 3), from every state: where the span, counted
as above, is larger than the ceiling, delivering the end marker's last byte in a chunk of its own loses the frame, and
the first RECEIVE reports the drop beside the frames it had extracted before. -/
def Obligations.FrameOverTheCeilingIsLostByALateSplit : Prop :=
  ∀ (s : State) (c : Bytes) (fs : List Bytes) (pre noise f : Bytes),
    s.buf ++ c = pre ++ (noise ++ s.cfg.startMark.bytes ++ f ++ [s.cfg.endMark.first]) → Segmented s.cfg pre fs [] →
    NoEarlierStart s.cfg noise → NoEarlierEnd s.cfg f → s.cfg.ceiling < frameSpan noise f → 0 < s.cfg.ceiling →
    ChunksAdmitted s.cfg [c, [s.cfg.endMark.second]] →
    ∃ t, execAll [.receive c, .receive [s.cfg.endMark.second]] s = .next t ∧
      newAnswers s t = [.response ⟨.rxDropped, fs, true⟩, .response ⟨.ok, [], false⟩] ∧ t.buf = [s.cfg.endMark.second]

/-- The ceiling at the default configuration (41_stream_reassembler.md, overflow example; 95_test_vectors.md V1.5): a
buffer and a chunk without a pair are kept up to 10240 bytes in all and cleared from 10241 on, and no frame comes of
them; with the three rows of V1.5. The value 10240 is the spec's decision D12 (log entry 17), that any chunk is admitted
D16 (log entry 16), and the strict comparison after extraction D11 (log entry 18); that the record of answers starts
empty is the model's choice (log entry 7). -/
def Obligations.DefaultCeilingKeeps10240BytesAndDropsMore : Prop :=
  (∀ b c : Bytes, ¬ HoldsPair State.reset.cfg (b ++ c) →
    ∃ t, exec (.receive c) { State.reset with buf := b } = .next t ∧
      ((b ++ c).length ≤ 10240 → t.buf = b ++ c ∧ t.answers = [.response ⟨.ok, [], false⟩]) ∧
      (10240 < (b ++ c).length → t.buf = [] ∧ t.answers = [.response ⟨.rxDropped, [], true⟩])) ∧
  (∃ t, exec (.receive (List.replicate 10240 0x78)) State.reset = .next t ∧ t.buf = List.replicate 10240 0x78 ∧
    t.answers = [.response ⟨.ok, [], false⟩]) ∧
  (∃ t, exec (.receive (List.replicate 10241 0x78)) State.reset = .next t ∧ t.buf = [] ∧
    t.answers = [.response ⟨.rxDropped, [], true⟩]) ∧
  ∃ t, exec (.receive (ascii "/")) { State.reset with buf := List.replicate 10240 0x78 } = .next t ∧ t.buf = [] ∧
    t.answers = [.response ⟨.rxDropped, [], true⟩]

/-- After a drop no byte of the cleared buffer comes back: every frame of the RECEIVEs that follow, none of them refused
for its length, lies with both its markers in the bytes they bring (41_stream_reassembler.md, overflow example;
70_reset_and_hazards.md section 3). -/
def Obligations.ClearedBytesNeverReturn : Prop :=
  ∀ (chunk : Bytes) (s t u : State) (cs : List Bytes) (fs : List Bytes), exec (.receive chunk) s = .next t →
    newAnswers s t = [.response ⟨.rxDropped, fs, true⟩] →
    ChunksAdmitted s.cfg cs → execAll (cs.map .receive) t = .next u →
    ∀ f ∈ newFrames t u, s.cfg.startMark.bytes ++ f ++ s.cfg.endMark.bytes <:+: cs.flatten

/-- Every emitted frame stands between markers in the buffered bytes, in one piece, and holds no end marker itself
(30_encoding.md section 2, 41_stream_reassembler.md, EXTRACT; decision D10). -/
def Obligations.EmittedFramesStandBetweenMarkers : Prop :=
  ∀ (chunk : Bytes) (s t : State), exec (.receive chunk) s = .next t →
    ∀ f ∈ newFrames s t, s.cfg.startMark.bytes ++ f ++ s.cfg.endMark.bytes <:+: s.buf ++ chunk ∧
      ¬ s.cfg.endMark.bytes <:+: f

/-- Each extraction removes its frame and at least four marker bytes: the frames of one RECEIVE, with four bytes each,
and what the buffer then holds fit into the bytes that were there (41_stream_reassembler.md, repetition and
termination). -/
def Obligations.EachFrameCostsItsBytesAndFourMore : Prop :=
  ∀ (chunk : Bytes) (s t : State), exec (.receive chunk) s = .next t →
    ((newFrames s t).map fun f => f.length + 4).sum + t.buf.length ≤ s.buf.length + chunk.length

/-- With the capacity the spec asks of an implementation, the buffer never holds more bytes than that inside a RECEIVE
that is not refused, from a state within the ceiling (20_memory.md section 2, the spec's decision D16). -/
def Obligations.RequiredCapacityHoldsTheAppendedChunk : Prop :=
  ∀ (s : State) (chunk : Bytes) (cap : Nat), s.buf.length ≤ s.cfg.ceiling → capacitySuffices s.cfg cap = true →
    chunkTooLong s.cfg chunk = false → (s.appendBuf chunk).buf.length ≤ cap

/-- The document's example stream: one frame, and the text after it stays buffered (41_stream_reassembler.md, worked
example). That the record of answers starts empty is the model's choice (log entry 7). -/
def Obligations.NoiseExampleGivesOneFrame : Prop :=
  ∃ t, exec (.receive (ascii "noise/*6026,A,B*/moretrailing")) State.reset = .next t ∧
    t.answers = [.response ⟨.ok, [ascii "6026,A,B"], false⟩] ∧ t.buf = ascii "moretrailing"

/-! ## Control operations (42_control.md; every rule there is the spec's decision) -/

/-- RESET completes in every state: empty buffer, ACCUMULATING, status OK, and nothing else changes, the refusal mark
included (42_control.md, RESET; decision D17). -/
def Obligations.ResetClearsTheReassemblerOnly : Prop :=
  ∀ s : State, exec .reset s
    = .next { s with buf := [], rsState := .accumulating, answers := s.answers ++ [.response ⟨.ok, [], false⟩] }

/-- After RESET the block receives as after power-on with the same configuration: a partial frame is lost and never
emitted (42_control.md, 70_reset_and_hazards.md sections 1 and 3; decision D17). That the record of answers starts empty
at power-on is the model's choice (log entry 7), and that the RECEIVEs complete also where one of them is refused, with
an entry in that record (log entries 2 and 4). -/
def Obligations.ResetForgetsEveryEarlierByte : Prop :=
  ∀ (s : State) (cs : List Bytes), ∃ t u v, exec .reset s = .next t ∧ execAll (cs.map .receive) t = .next u ∧
    execAll (cs.map .receive) (State.powerOn s.cfg) = .next v ∧ u.buf = v.buf ∧ u.rsState = v.rsState ∧
    newAnswers t u = v.answers

/-- A reserved or illegal request is refused in every state: the mark is set, no response is given and no other state
changes (42_control.md, reserved and illegal requests; decision D22). That this is a next state with an entry in the
record of answers is the model's choice (log entries 2 and 4). -/
def Obligations.IllegalRequestOnlySetsTheMark : Prop :=
  ∀ (opb : Byte) (data : Bytes) (s : State), exec (.reserved opb data) s
    = .next { s with refused := true, answers := s.answers ++ [.refused .illegalRequest] }

/-- The bytes of a reserved op byte, or of RESET with data, at the port are one step's refusal (30_encoding.md section
3, decisions D2 and D22). That what follows them stays at the port is the model's split of one byte stream (log entry
24), and that the refusal is a next state with an entry in the record of answers is its choice too (log entry 2). -/
def Obligations.ReservedBytesAtThePortAreRefused : Prop :=
  ∀ (opb : Byte) (data rest : Bytes) (s : State), data.length < 2 ^ 32 → opb ≠ 0x01 → opb ≠ 0x02 →
    (opb = 0x03 → data ≠ []) → s.port = opb :: (be32 data.length ++ data ++ rest) →
    step s = .next { s with port := rest, refused := true, answers := s.answers ++ [.refused .illegalRequest] }

/-! ## Text syntax (30_encoding.md section 4; decision D23) -/

/-- A line of text that fits the syntax assembles to bytes that decode to its request, and no line is a reserved
request. -/
def Obligations.AssembledLineDecodesToItsRequest : Prop :=
  ∀ (text : List Char) (l : Line), readLine text = some l →
    decode l.bytes = .ok l.instr ∧ ∀ opb data, l.instr ≠ .reserved opb data

/-- Which text reads as which request: for every byte sequence, its hex-pair line after ENCODE or RECEIVE reads as that
request with those bytes, an ENCODE with the draws its annotations name and, where they are left out, the default ones,
connected and the whole frame accepted. That hex digits are read in either case, and decimals with leading zeros, is the
model's choice (log entry 30). -/
def Obligations.HexLinesReadAsTheirRequests : Prop :=
  readLine "RESET".toList = some ⟨.reset, none⟩ ∧
  ∀ (data : Bytes) (text : List Char), data.length < 2 ^ 32 →
    (text = hexText data ∨ text = (hexText data).map Char.toUpper) →
    readLine ("RECEIVE x\"".toList ++ text ++ "\"".toList) = some ⟨.receive data, none⟩ ∧
    readLine ("ENCODE x\"".toList ++ text ++ "\"".toList) = some ⟨.encode data, some ⟨true, data.length + 18⟩⟩ ∧
    (∀ ds : List (Fin 10), ds ≠ [] →
      readLine ("ENCODE x\"".toList ++ text ++ "\" @acc=".toList ++ decimalText ds)
        = some ⟨.encode data, some ⟨true, decimalValue ds⟩⟩) ∧
    ∀ (conn : Bool) (digit : Char), digit = (if conn then '1' else '0') →
      readLine ("ENCODE x\"".toList ++ text ++ "\" @conn=".toList ++ [digit])
        = some ⟨.encode data, some ⟨conn, data.length + 18⟩⟩ ∧
      ∀ ds : List (Fin 10), ds ≠ [] →
        readLine ("ENCODE x\"".toList ++ text ++ "\" @conn=".toList ++ [digit] ++ " @acc=".toList ++ decimalText ds)
          = some ⟨.encode data, some ⟨conn, decimalValue ds⟩⟩

/-- The other byte forms of a line: a quoted ASCII string reads as its codes, the escape as any byte, `rep` as copies of
one byte (its byte with or without `0x` is the model's reading, log entry 25), and forms joined by `++` as the
concatenation. That the hex digits are read in lower case too, and decimals with leading zeros, is the model's choice
(log entry 30). -/
def Obligations.ByteFormsReadAsTheirBytes : Prop :=
  (∀ cs : List Char, cs.length < 2 ^ 32 → (∀ c ∈ cs, c.toNat < 128 ∧ c ≠ '"' ∧ c ≠ '\\') →
    readLine ("RECEIVE \"".toList ++ cs ++ "\"".toList) = some ⟨.receive (cs.map asciiCode), none⟩) ∧
  (∀ data : Bytes, data.length < 2 ^ 32 →
    readLine ("RECEIVE \"".toList ++ data.flatMap (fun b => "\\x".toList ++ hexText [b]) ++ "\"".toList)
      = some ⟨.receive data, none⟩) ∧
  (∀ (v : Byte) (ds : List (Fin 10)), ds ≠ [] → decimalValue ds < 2 ^ 32 →
    readLine ("RECEIVE rep(0x".toList ++ hexText [v] ++ ", ".toList ++ decimalText ds ++ ")".toList)
      = some ⟨.receive (List.replicate (decimalValue ds) v), none⟩ ∧
    readLine ("RECEIVE rep(".toList ++ hexText [v] ++ ", ".toList ++ decimalText ds ++ ")".toList)
      = some ⟨.receive (List.replicate (decimalValue ds) v), none⟩) ∧
  ∀ data data' : Bytes, (data ++ data').length < 2 ^ 32 →
    readLine ("RECEIVE x\"".toList ++ hexText data ++ "\" ++ x\"".toList ++ hexText data' ++ "\"".toList)
      = some ⟨.receive (data ++ data'), none⟩

/-- A line presented to an idle block is run by the next step; an ENCODE line is run with the draws its annotations
name where no other answers are pending. That a line's bytes are appended at the port and run in the very next step is
the model's way to present a program (log entry 22), and that its draws are an entry of a list the ENCODE takes is the
model's choice (log entry 3). -/
def Obligations.PresentedLineIsRunByTheNextStep : Prop :=
  ∀ (text : List Char) (l : Line) (s : State), readLine text = some l → s.port = [] → s.txDraws = [] →
    step (s.presentLine l) = exec l.instr { s with txDraws := l.draw.toList } ∧
    ∀ d, l.draw = some d → ({ s with txDraws := l.draw.toList } : State).txDraw = d

/-! ## Byte sequences (00_scope.md section 4) -/

/-- The search of R12: what it finds is the least index at or after `start` at which `m` stands in `s`, and it finds
nothing exactly where there is no such index. -/
def Obligations.FindIsTheLeastOccurrence : Prop :=
  ∀ (s m : Bytes) (start : Nat),
    (∀ i, find s m start = some i ↔ (start ≤ i ∧ i + m.length ≤ s.length ∧ slice s i (i + m.length) = m) ∧
      ∀ k, start ≤ k → k + m.length ≤ s.length → slice s k (k + m.length) = m → i ≤ k) ∧
    (find s m start = none ↔ ∀ i, start ≤ i → i + m.length ≤ s.length → slice s i (i + m.length) ≠ m)
end

