-- ==== Sys2Proof/Laws/Assembler.lean ====
section
/-! SUPPORT. What the readers of the text syntax make of the text of bytes and numbers (spec/30_encoding.md R66). -/

namespace Sys2Proof.Machine

/-- A text that opens with a word, without the word. -/
@[simp] theorem dropWord_append (w cs : List Char) : dropWord w (w ++ cs) = some cs := by
  induction w with
  | nil => rfl
  | cons a w ih => simp [dropWord, ih]

/-- A digit character of the sixteen, of either case, reads as its value. -/
theorem hexDigit_digitChar (n : Nat) (h : n < 16) :
    hexDigit n.digitChar = some n ∧ hexDigit n.digitChar.toUpper = some n := by
  revert n
  decide

theorem decDigit_digitChar (d : Fin 10) : decDigit d.val.digitChar = some d.val := by
  revert d
  decide

/-- The two digits of a byte, of either case, read as the byte. -/
theorem hexByte_digitChar (b : Byte) :
    hexByte (b.toNat / 16).digitChar (b.toNat % 16).digitChar = some b ∧
      hexByte (b.toNat / 16).digitChar.toUpper (b.toNat % 16).digitChar.toUpper = some b := by
  have hb := b.isLt
  have h1 := hexDigit_digitChar (b.toNat / 16) (by omega)
  have h2 := hexDigit_digitChar (b.toNat % 16) (by omega)
  have h3 : BitVec.ofNat 8 (b.toNat / 16 * 16 + b.toNat % 16) = b := by
    apply BitVec.eq_of_toNat_eq
    rw [Nat.div_add_mod']
    simp
  simp [hexByte, h1, h2, h3]

/-- No hex digit is a quote, so a pair of digits never ends a string. -/
theorem digitChar_ne_quote (n : Nat) (h : n < 16) : n.digitChar ≠ '"' ∧ n.digitChar.toUpper ≠ '"' := by
  revert n
  decide

/-- `x"..."` after its opening quote, its digits of either case: the bytes, and the text after the closing quote. -/
theorem readHexPairs_hexText (data : Bytes) (text r : List Char)
    (h : text = hexText data ∨ text = (hexText data).map Char.toUpper) :
    readHexPairs (text ++ '"' :: r) = some (data, r) := by
  induction data generalizing text with
  | nil =>
    obtain rfl : text = [] := by rcases h with rfl | rfl <;> rfl
    rfl
  | cons b data ih =>
    have hq := digitChar_ne_quote (b.toNat / 16) (by have := b.isLt; omega)
    have hb := hexByte_digitChar b
    rcases h with rfl | rfl
    · have := ih (hexText data) (.inl rfl)
      simp only [hexText] at this
      simp [hexText, readHexPairs, hq, hb, this]
    · have := ih ((hexText data).map Char.toUpper) (.inr rfl)
      simp only [hexText] at this
      simp [hexText, readHexPairs, hq, hb, this]

/-- A decimal number, before a text that does not go on with a digit. -/
theorem readDecimal_decimalText (ds : List (Fin 10)) (r : List Char) (acc : Nat) (seen : Bool)
    (hs : seen = true ∨ ds ≠ []) (hr : ∀ c r', r = c :: r' → decDigit c = none) :
    readDecimal (decimalText ds ++ r) acc seen = some (ds.foldl (fun a d => a * 10 + d.val) acc, r) := by
  induction ds generalizing acc seen with
  | nil =>
    obtain rfl : seen = true := by simpa using hs
    cases r with
    | nil => rfl
    | cons c r => simp [decimalText, readDecimal, hr c r rfl]
  | cons d ds ih =>
    have := ih (acc * 10 + d.val) true (.inl rfl)
    simp only [decimalText] at this
    simp [decimalText, readDecimal, decDigit_digitChar, this]

end Sys2Proof.Machine
end

