-- ==== Sys2Proof/Laws/Decode.lean ====
section
/-! SUPPORT. The byte-order helpers and the shape of an encoded request (spec/00_scope.md R11, spec/30_encoding.md
R60, R64). -/

namespace Sys2Proof

@[simp] theorem beBytes_length (k v : Nat) : (beBytes k v).length = k := by
  induction k with
  | zero => rfl
  | succ k ih => simp [beBytes, ih]

/-- `be32`, byte by byte. -/
theorem be32_eq (v : Nat) :
    be32 v = [BitVec.ofNat 8 (v / 2 ^ 24), BitVec.ofNat 8 (v / 2 ^ 16), BitVec.ofNat 8 (v / 2 ^ 8), BitVec.ofNat 8 v] := by
  simp [be32, beBytes]

/-- A length that fits 32 bits is read back from its four bytes. -/
theorem lengthField_be32 (v : Nat) (h : v < 2 ^ 32) :
    lengthField (BitVec.ofNat 8 (v / 2 ^ 24)) (BitVec.ofNat 8 (v / 2 ^ 16)) (BitVec.ofNat 8 (v / 2 ^ 8))
      (BitVec.ofNat 8 v) = v := by
  simp only [lengthField, BitVec.toNat_ofNat]
  omega

theorem encode_length (i : Instr) : (encode i).length = 5 + (operandBytes i).length := by
  simp [encode, be32]; omega

/-- The length of a request is known from its first five bytes, whatever follows it. -/
theorem requestLength_encode_append (i : Instr) (rest : Bytes) (h : (operandBytes i).length < 2 ^ 32) :
    requestLength (encode i ++ rest) = some (encode i).length := by
  rw [encode_length]
  simp only [encode, be32_eq, List.cons_append, List.nil_append, requestLength]
  exact congrArg (fun n => some (5 + n)) (lengthField_be32 _ h)

/-- The port's next request, where its first bytes `r` are one whole request. -/
theorem fetch_of_split (r rest : Bytes) (i : Instr) (hk : requestLength (r ++ rest) = some r.length)
    (hd : decode r = .ok i) : fetch (r ++ rest) = some (i, rest) := by
  simp [fetch, splitRequest, hk, hd]

/-- No request is fetched while the port's bytes are incomplete. -/
theorem fetch_of_incomplete (p : Bytes) (h : decode p = .incomplete) : fetch p = none := by
  have hs : splitRequest p = none := by
    unfold splitRequest
    unfold decode at h
    split at h
    · rename_i hp
      split at h
      · rename_i hlt
        simp [requestLength]
        omega
      · split at h <;> cases h
    · rename_i hne
      have hk : requestLength p = none := by
        unfold requestLength
        split
        · exact absurd rfl (hne _ _ _ _ _ _)
        · rfl
      rw [hk]
  simp [fetch, hs]

/-- `splitRequest`, found: five bytes of head, the announced data, and the rest. -/
theorem splitRequest_spec (p r rest : Bytes) (h : splitRequest p = some (r, rest)) :
    p = r ++ rest ∧ requestLength p = some r.length ∧ 5 ≤ r.length := by
  unfold splitRequest at h
  split at h
  · cases h
  · rename_i k hk
    split at h
    · cases h
    · rename_i hlt
      obtain ⟨rfl, rfl⟩ : p.take k = r ∧ p.drop k = rest := by simpa using h
      have hlen : (p.take k).length = k := by simp; omega
      refine ⟨(List.take_append_drop k p).symm, by rw [hlen, hk], ?_⟩
      rw [hlen]
      unfold requestLength at hk
      split at hk
      · simp at hk; omega
      · cases hk

theorem instr_wellFormed_lengthFits (i : Instr) (h : i.wellFormed = true) : (operandBytes i).length < 2 ^ 32 := by
  cases i <;> simp_all [Instr.wellFormed, operandBytes, lengthFits]

end Sys2Proof
end

