-- ==== Sys2Proof/Laws/Operands.lean ====
section
/-! SUPPORT. What the searches of Machine/Operands.lean find, said by what the byte sequence is (spec/00_scope.md R12,
spec/41_stream_reassembler.md R87, R90). -/

namespace Sys2Proof.Machine

/-- An occurrence found at `i`: `m` stands there, and at no earlier index. -/
theorem findFirst_eq_some_iff (m s : Bytes) (i : Nat) :
    findFirst m s = some i ↔ i ≤ s.length ∧ m <+: s.drop i ∧ ∀ k < i, ¬ m <+: s.drop k := by
  induction s generalizing i with
  | nil =>
    by_cases hm : m = []
    · subst hm; simp [findFirst]; constructor
      · rintro rfl; simp
      · rintro ⟨h, -⟩; exact h.symm
    · simp [findFirst, hm]
  | cons b t ih =>
    by_cases h : m.isPrefixOf (b :: t)
    · have h' : m <+: b :: t := List.isPrefixOf_iff_prefix.mp h
      simp only [findFirst, h, if_true, Option.some.injEq]
      constructor
      · rintro rfl; exact ⟨by simp, by simpa using h', by simp⟩
      · rintro ⟨-, -, hk⟩
        by_contra hne
        exact hk 0 (by omega) (by simpa using h')
    · have h' : ¬ m <+: b :: t := fun hp => h (List.isPrefixOf_iff_prefix.mpr hp)
      simp only [findFirst, h]
      cases i with
      | zero => simp [h']
      | succ i =>
        have := ih i
        constructor
        · intro hs
          have hi : findFirst m t = some i := by simpa using hs
          obtain ⟨h1, h2, h3⟩ := this.mp hi
          refine ⟨by simpa using h1, by simpa using h2, fun k hk => ?_⟩
          cases k with
          | zero => simpa using h'
          | succ k => simpa using h3 k (by omega)
        · rintro ⟨h1, h2, h3⟩
          have hi := this.mpr ⟨by simpa using h1, by simpa using h2,
            fun k hk => by simpa using h3 (k + 1) (by omega)⟩
          simpa using hi

/-- Nothing found: `m` stands at no index. -/
theorem findFirst_eq_none_iff (m s : Bytes) : findFirst m s = none ↔ ¬ m <:+: s := by
  induction s with
  | nil => by_cases hm : m = [] <;> simp [findFirst, hm]
  | cons b t ih =>
    rw [List.infix_cons_iff, not_or, ← ih, ← List.isPrefixOf_iff_prefix]
    by_cases h : m.isPrefixOf (b :: t) <;> simp [findFirst, h]

/-- `find` (R12), found. -/
theorem find_eq_some_iff (s m : Bytes) (a i : Nat) :
    find s m a = some i ↔ a ≤ i ∧ i ≤ s.length ∧ m <+: s.drop i ∧ ∀ k, a ≤ k → k < i → ¬ m <+: s.drop k := by
  unfold find
  by_cases ha : a ≤ s.length
  · simp only [ha, if_true, Option.map_eq_some_iff, findFirst_eq_some_iff, List.drop_drop, List.length_drop]
    constructor
    · rintro ⟨j, ⟨h1, h2, h3⟩, rfl⟩
      refine ⟨by omega, by omega, h2, fun k hk hlt => ?_⟩
      have := h3 (k - a) (by omega)
      rwa [show a + (k - a) = k by omega] at this
    · rintro ⟨h1, h2, h3, h4⟩
      refine ⟨i - a, ⟨by omega, by rwa [show a + (i - a) = i by omega], fun k hk => ?_⟩, by omega⟩
      exact h4 (a + k) (by omega) (by omega)
  · simp only [ha, if_false, reduceCtorEq, false_iff]
    rintro ⟨h1, h2, -⟩; omega

/-- `find` (R12), not found. -/
theorem find_eq_none_iff (s m : Bytes) (a : Nat) : find s m a = none ↔ (a ≤ s.length → ¬ m <:+: s.drop a) := by
  unfold find
  by_cases ha : a ≤ s.length <;> simp [ha, findFirst_eq_none_iff]

/-- The first two-byte marker of a sequence that holds one: everything before it and the marker's first byte hold no
marker. -/
theorem find_split (p q : Byte) (b : Bytes) (i : Nat) (h : find b [p, q] 0 = some i) :
    ∃ x z, b = x ++ [p, q] ++ z ∧ x.length = i ∧ ¬ [p, q] <:+: x ++ [p] := by
  obtain ⟨-, hi, ⟨z, hz⟩, hk⟩ := (find_eq_some_iff _ _ _ _).mp h
  refine ⟨b.take i, z, ?_, by simp [hi], ?_⟩
  · rw [List.append_assoc, hz, List.take_append_drop]
  · rintro ⟨u, v, huv⟩
    have hlen := congrArg List.length huv
    simp [hi] at hlen
    have hb : b = u ++ [p, q] ++ (v ++ (q :: z)) := by
      calc b = (b.take i ++ [p]) ++ (q :: z) := by
            rw [List.append_assoc, List.singleton_append, show p :: q :: z = b.drop i from hz, List.take_append_drop]
        _ = u ++ [p, q] ++ (v ++ (q :: z)) := by rw [← huv]; simp
    refine hk u.length (by omega) (by omega) ?_
    rw [hb, List.append_assoc, List.drop_left]
    exact ⟨_, rfl⟩

/-- The converse of `find_split`. -/
theorem find_of_split (p q : Byte) (x z : Bytes) (h : ¬ [p, q] <:+: x ++ [p]) :
    find (x ++ [p, q] ++ z) [p, q] 0 = some x.length := by
  rw [find_eq_some_iff]
  refine ⟨by omega, by simp, ⟨z, by simp⟩, fun k _ hk hp => h ?_⟩
  obtain ⟨w, hw⟩ := hp
  have hd : (x ++ [p, q] ++ z).drop k = x.drop k ++ ([p] ++ (q :: z)) := by
    rw [List.append_assoc, List.drop_append_of_le_length (by omega)]; simp
  rw [hd] at hw
  have hw' : [p, q] ++ w = (x.drop k ++ [p]) ++ (q :: z) := by rw [hw]; simp
  have hpre : [p, q] <+: x.drop k ++ [p] := by
    have h2 : [p, q].length ≤ (x.drop k ++ [p]).length := by simp; omega
    exact List.prefix_of_prefix_length_le ⟨w, hw'⟩ ⟨_, rfl⟩ h2
  have hs : x.drop k ++ [p] <:+ x ++ [p] := ⟨x.take k, by rw [← List.append_assoc, List.take_append_drop]⟩
  exact hpre.isInfix.trans hs.isInfix

/-- A search from an index is a search from the start of what begins there. -/
theorem find_eq_map_drop (b m : Bytes) (a : Nat) (ha : a ≤ b.length) :
    find b m a = (find (b.drop a) m 0).map (a + ·) := by
  simp [find, ha]

/-! ### The pair of the configuration's markers -/

variable (cfg : Config)

/-- The first pair: noise, start marker, frame, end marker, and the rest. -/
theorem firstPair_split (b : Bytes) (i j : Nat) (h : firstPair cfg b = some (i, j)) :
    ∃ noise f tail, FirstFrame cfg b noise f tail ∧ i = noise.length ∧ j = noise.length + 2 + f.length := by
  unfold firstPair at h
  split at h
  · cases h
  · rename_i i' hi
    split at h
    · cases h
    · rename_i j' hj
      obtain ⟨rfl, rfl⟩ : i' = i ∧ j' = j := by simpa using h
      obtain ⟨noise, z, hb, hx, hs⟩ := find_split cfg.startMark.first cfg.startMark.second b i' hi
      have hz : b.drop (i' + 2) = z := by
        rw [hb, ← hx]; simp
      have hle : i' + 2 ≤ b.length := by rw [hb]; simp; omega
      rw [find_eq_map_drop _ _ _ hle, hz, Option.map_eq_some_iff] at hj
      obtain ⟨k, hk, rfl⟩ := hj
      obtain ⟨f, tail, hz', hf, he⟩ := find_split cfg.endMark.first cfg.endMark.second z k hk
      exact ⟨noise, f, tail, ⟨by rw [hb, hz']; simp [Marker.bytes], hs, he⟩, hx.symm, by rw [hx, hf]⟩

/-- The converse of `firstPair_split`. -/
theorem firstPair_of_split {b noise f tail : Bytes} (h : FirstFrame cfg b noise f tail) :
    firstPair cfg b = some (noise.length, noise.length + 2 + f.length) := by
  obtain ⟨rfl, hs, he⟩ := h
  have h1 : find (noise ++ cfg.startMark.bytes ++ f ++ cfg.endMark.bytes ++ tail) cfg.startMark.bytes 0
      = some noise.length := by
    have := find_of_split cfg.startMark.first cfg.startMark.second noise (f ++ cfg.endMark.bytes ++ tail) hs
    simpa [Marker.bytes] using this
  have h2 : find (noise ++ cfg.startMark.bytes ++ f ++ cfg.endMark.bytes ++ tail) cfg.endMark.bytes (noise.length + 2)
      = some (noise.length + 2 + f.length) := by
    have hd : (noise ++ cfg.startMark.bytes ++ f ++ cfg.endMark.bytes ++ tail).drop (noise.length + 2)
        = f ++ cfg.endMark.bytes ++ tail := by simp [Marker.bytes]
    rw [find_eq_map_drop _ _ _ (by simp [Marker.bytes]), hd]
    have := find_of_split cfg.endMark.first cfg.endMark.second f tail he
    simp only [Marker.bytes, this, Option.map_some]
  unfold firstPair
  rw [h1]
  simp only [h2]

/-- No pair is found exactly where none is held (R87: the first start marker loses nothing). -/
theorem firstPair_eq_none_iff (b : Bytes) : firstPair cfg b = none ↔ ¬ HoldsPair cfg b := by
  constructor
  · rintro h ⟨x, y, z, rfl⟩
    unfold firstPair at h
    split at h
    · rename_i hn
      refine (find_eq_none_iff _ _ _).mp hn (by omega) ?_
      exact ⟨x, y ++ cfg.endMark.bytes ++ z, by simp⟩
    · rename_i i hi
      split at h
      · rename_i hn
        obtain ⟨-, hle, hp, hk⟩ := (find_eq_some_iff _ _ _ _).mp hi
        have hix : i ≤ x.length := by
          by_contra hlt
          refine hk x.length (by omega) (by omega) ?_
          simp
        have hi2 : i + 2 ≤ (x ++ cfg.startMark.bytes ++ y ++ cfg.endMark.bytes ++ z).length := by
          simp [Marker.bytes]; omega
        refine (find_eq_none_iff _ _ _).mp hn hi2 ?_
        have hd : (x ++ cfg.startMark.bytes ++ y ++ cfg.endMark.bytes ++ z).drop (i + 2)
            = (x ++ cfg.startMark.bytes ++ y).drop (i + 2) ++ (cfg.endMark.bytes ++ z) := by
          rw [List.append_assoc, List.drop_append_of_le_length (by simp [Marker.bytes]; omega)]
        rw [hd]
        exact ⟨_, z, by rw [List.append_assoc]⟩
      · cases h
  · intro h
    cases hf : firstPair cfg b with
    | none => rfl
    | some ij =>
      obtain ⟨noise, f, tail, ⟨hb, -⟩, -⟩ := firstPair_split cfg b ij.1 ij.2 hf
      exact absurd ⟨noise, f, tail, hb⟩ h

/-- A pair has four bytes (R94). -/
theorem not_holdsPair_of_short {b : Bytes} (h : b.length < 4) : ¬ HoldsPair cfg b := by
  rintro ⟨x, y, z, rfl⟩
  simp [Marker.bytes] at h
  omega

theorem hasPair_eq_false_iff (b : Bytes) : hasPair cfg b = false ↔ ¬ HoldsPair cfg b := by
  rw [← firstPair_eq_none_iff, hasPair, Option.isSome_eq_false_iff, Option.isNone_iff_eq_none]

/-- The slice and the rest that an extraction takes of a split buffer. -/
theorem slice_of_split {b noise f tail : Bytes} (h : FirstFrame cfg b noise f tail) :
    slice b (noise.length + 2) (noise.length + 2 + f.length) = f := by
  rw [h.1]
  simp [slice, Marker.bytes]

theorem drop_of_split {b noise f tail : Bytes} (h : FirstFrame cfg b noise f tail) :
    b.drop (noise.length + 2 + f.length + 2) = tail := by
  rw [h.1]
  exact List.drop_left' (by simp [Marker.bytes]; omega)

end Sys2Proof.Machine
end

