-- ==== Sys2Proof/Laws/PerInstr.lean ====
section
/-! SUPPORT. Facts about every request as syntax, one lemma per constructor. Family `EncodedHead`: the encoding of a
request opens with its op byte and the big-endian length of its data, and the data follows (spec/30_encoding.md R60). -/

namespace Sys2Proof.Laws.EncodedHead

/-- The encoding's first five bytes, and what follows them. -/
def Statement (i : Sys2Proof.Instr) : Prop :=
  (Sys2Proof.encode i).take 5 = Sys2Proof.opByte i :: Sys2Proof.be32 (Sys2Proof.operandBytes i).length ∧
    (Sys2Proof.encode i).drop 5 = Sys2Proof.operandBytes i

/-- Every encoding has this shape; the constructors' lemmas are its cases. -/
theorem of_instr (i : Sys2Proof.Instr) : Statement i := by
  simp [Statement, Sys2Proof.encode, Sys2Proof.be32_eq]

theorem encode (cmd : Sys2Proof.Bytes) : Statement (.encode cmd) := of_instr _

theorem receive (chunk : Sys2Proof.Bytes) : Statement (.receive chunk) := of_instr _

theorem reset : Statement .reset := of_instr _

theorem reserved (opb : Sys2Proof.Byte) (data : Sys2Proof.Bytes) : Statement (.reserved opb data) := of_instr _

end Sys2Proof.Laws.EncodedHead
end

