-- ==== Sys2Proof/Laws/State.lean ====
section
/-! SUPPORT. One lemma per field per named update of the state: what the update makes of the field. -/

namespace Sys2Proof.Machine

variable (s : State)

/-! ### appendBuf -/

@[simp] theorem State.appendBuf_cfg (c : Bytes) : (s.appendBuf c).cfg = s.cfg := rfl
@[simp] theorem State.appendBuf_buf (c : Bytes) : (s.appendBuf c).buf = s.buf ++ c := rfl
@[simp] theorem State.appendBuf_rsState (c : Bytes) : (s.appendBuf c).rsState = s.rsState := rfl
@[simp] theorem State.appendBuf_refused (c : Bytes) : (s.appendBuf c).refused = s.refused := rfl
@[simp] theorem State.appendBuf_port (c : Bytes) : (s.appendBuf c).port = s.port := rfl
@[simp] theorem State.appendBuf_txDraws (c : Bytes) : (s.appendBuf c).txDraws = s.txDraws := rfl
@[simp] theorem State.appendBuf_txDrawn (c : Bytes) : (s.appendBuf c).txDrawn = s.txDrawn := rfl
@[simp] theorem State.appendBuf_calls (c : Bytes) : (s.appendBuf c).calls = s.calls := rfl
@[simp] theorem State.appendBuf_answers (c : Bytes) : (s.appendBuf c).answers = s.answers := rfl

/-! ### consumeBuf -/

@[simp] theorem State.consumeBuf_cfg (n : Nat) : (s.consumeBuf n).cfg = s.cfg := rfl
@[simp] theorem State.consumeBuf_buf (n : Nat) : (s.consumeBuf n).buf = s.buf.drop n := rfl
@[simp] theorem State.consumeBuf_rsState (n : Nat) : (s.consumeBuf n).rsState = s.rsState := rfl
@[simp] theorem State.consumeBuf_refused (n : Nat) : (s.consumeBuf n).refused = s.refused := rfl
@[simp] theorem State.consumeBuf_port (n : Nat) : (s.consumeBuf n).port = s.port := rfl
@[simp] theorem State.consumeBuf_txDraws (n : Nat) : (s.consumeBuf n).txDraws = s.txDraws := rfl
@[simp] theorem State.consumeBuf_txDrawn (n : Nat) : (s.consumeBuf n).txDrawn = s.txDrawn := rfl
@[simp] theorem State.consumeBuf_calls (n : Nat) : (s.consumeBuf n).calls = s.calls := rfl
@[simp] theorem State.consumeBuf_answers (n : Nat) : (s.consumeBuf n).answers = s.answers := rfl

/-! ### clearBuf -/

@[simp] theorem State.clearBuf_cfg : (s.clearBuf).cfg = s.cfg := rfl
@[simp] theorem State.clearBuf_buf : (s.clearBuf).buf = [] := rfl
@[simp] theorem State.clearBuf_rsState : (s.clearBuf).rsState = s.rsState := rfl
@[simp] theorem State.clearBuf_refused : (s.clearBuf).refused = s.refused := rfl
@[simp] theorem State.clearBuf_port : (s.clearBuf).port = s.port := rfl
@[simp] theorem State.clearBuf_txDraws : (s.clearBuf).txDraws = s.txDraws := rfl
@[simp] theorem State.clearBuf_txDrawn : (s.clearBuf).txDrawn = s.txDrawn := rfl
@[simp] theorem State.clearBuf_calls : (s.clearBuf).calls = s.calls := rfl
@[simp] theorem State.clearBuf_answers : (s.clearBuf).answers = s.answers := rfl

/-! ### setRsState -/

@[simp] theorem State.setRsState_cfg (r : RsState) : (s.setRsState r).cfg = s.cfg := rfl
@[simp] theorem State.setRsState_buf (r : RsState) : (s.setRsState r).buf = s.buf := rfl
@[simp] theorem State.setRsState_rsState (r : RsState) : (s.setRsState r).rsState = r := rfl
@[simp] theorem State.setRsState_refused (r : RsState) : (s.setRsState r).refused = s.refused := rfl
@[simp] theorem State.setRsState_port (r : RsState) : (s.setRsState r).port = s.port := rfl
@[simp] theorem State.setRsState_txDraws (r : RsState) : (s.setRsState r).txDraws = s.txDraws := rfl
@[simp] theorem State.setRsState_txDrawn (r : RsState) : (s.setRsState r).txDrawn = s.txDrawn := rfl
@[simp] theorem State.setRsState_calls (r : RsState) : (s.setRsState r).calls = s.calls := rfl
@[simp] theorem State.setRsState_answers (r : RsState) : (s.setRsState r).answers = s.answers := rfl

/-! ### nextDraw -/

@[simp] theorem State.nextDraw_cfg : (s.nextDraw).cfg = s.cfg := rfl
@[simp] theorem State.nextDraw_buf : (s.nextDraw).buf = s.buf := rfl
@[simp] theorem State.nextDraw_rsState : (s.nextDraw).rsState = s.rsState := rfl
@[simp] theorem State.nextDraw_refused : (s.nextDraw).refused = s.refused := rfl
@[simp] theorem State.nextDraw_port : (s.nextDraw).port = s.port := rfl
@[simp] theorem State.nextDraw_txDraws : (s.nextDraw).txDraws = s.txDraws.tail := rfl
@[simp] theorem State.nextDraw_txDrawn : (s.nextDraw).txDrawn = s.txDrawn + 1 := rfl
@[simp] theorem State.nextDraw_calls : (s.nextDraw).calls = s.calls := rfl
@[simp] theorem State.nextDraw_answers : (s.nextDraw).answers = s.answers := rfl

/-! ### txConnected -/

@[simp] theorem State.txConnected_cfg (d : TxDraw) : (s.txConnected d).cfg = s.cfg := rfl
@[simp] theorem State.txConnected_buf (d : TxDraw) : (s.txConnected d).buf = s.buf := rfl
@[simp] theorem State.txConnected_rsState (d : TxDraw) : (s.txConnected d).rsState = s.rsState := rfl
@[simp] theorem State.txConnected_refused (d : TxDraw) : (s.txConnected d).refused = s.refused := rfl
@[simp] theorem State.txConnected_port (d : TxDraw) : (s.txConnected d).port = s.port := rfl
@[simp] theorem State.txConnected_txDraws (d : TxDraw) : (s.txConnected d).txDraws = s.txDraws := rfl
@[simp] theorem State.txConnected_txDrawn (d : TxDraw) : (s.txConnected d).txDrawn = s.txDrawn := rfl
@[simp] theorem State.txConnected_calls (d : TxDraw) : (s.txConnected d).calls = s.calls ++ [.isConnected d.connected] := rfl
@[simp] theorem State.txConnected_answers (d : TxDraw) : (s.txConnected d).answers = s.answers := rfl

/-! ### txWrite -/

@[simp] theorem State.txWrite_cfg (d : TxDraw) (b : Bytes) : (s.txWrite d b).cfg = s.cfg := rfl
@[simp] theorem State.txWrite_buf (d : TxDraw) (b : Bytes) : (s.txWrite d b).buf = s.buf := rfl
@[simp] theorem State.txWrite_rsState (d : TxDraw) (b : Bytes) : (s.txWrite d b).rsState = s.rsState := rfl
@[simp] theorem State.txWrite_refused (d : TxDraw) (b : Bytes) : (s.txWrite d b).refused = s.refused := rfl
@[simp] theorem State.txWrite_port (d : TxDraw) (b : Bytes) : (s.txWrite d b).port = s.port := rfl
@[simp] theorem State.txWrite_txDraws (d : TxDraw) (b : Bytes) : (s.txWrite d b).txDraws = s.txDraws := rfl
@[simp] theorem State.txWrite_txDrawn (d : TxDraw) (b : Bytes) : (s.txWrite d b).txDrawn = s.txDrawn := rfl
@[simp] theorem State.txWrite_calls (d : TxDraw) (b : Bytes) : (s.txWrite d b).calls = s.calls ++ [.write b (d.acceptedOf b)] := rfl
@[simp] theorem State.txWrite_answers (d : TxDraw) (b : Bytes) : (s.txWrite d b).answers = s.answers := rfl

/-! ### logAnswer -/

@[simp] theorem State.logAnswer_cfg (a : Answer) : (s.logAnswer a).cfg = s.cfg := rfl
@[simp] theorem State.logAnswer_buf (a : Answer) : (s.logAnswer a).buf = s.buf := rfl
@[simp] theorem State.logAnswer_rsState (a : Answer) : (s.logAnswer a).rsState = s.rsState := rfl
@[simp] theorem State.logAnswer_refused (a : Answer) : (s.logAnswer a).refused = s.refused := rfl
@[simp] theorem State.logAnswer_port (a : Answer) : (s.logAnswer a).port = s.port := rfl
@[simp] theorem State.logAnswer_txDraws (a : Answer) : (s.logAnswer a).txDraws = s.txDraws := rfl
@[simp] theorem State.logAnswer_txDrawn (a : Answer) : (s.logAnswer a).txDrawn = s.txDrawn := rfl
@[simp] theorem State.logAnswer_calls (a : Answer) : (s.logAnswer a).calls = s.calls := rfl
@[simp] theorem State.logAnswer_answers (a : Answer) : (s.logAnswer a).answers = s.answers ++ [a] := rfl

/-! ### markRefused -/

@[simp] theorem State.markRefused_cfg : (s.markRefused).cfg = s.cfg := rfl
@[simp] theorem State.markRefused_buf : (s.markRefused).buf = s.buf := rfl
@[simp] theorem State.markRefused_rsState : (s.markRefused).rsState = s.rsState := rfl
@[simp] theorem State.markRefused_refused : (s.markRefused).refused = true := rfl
@[simp] theorem State.markRefused_port : (s.markRefused).port = s.port := rfl
@[simp] theorem State.markRefused_txDraws : (s.markRefused).txDraws = s.txDraws := rfl
@[simp] theorem State.markRefused_txDrawn : (s.markRefused).txDrawn = s.txDrawn := rfl
@[simp] theorem State.markRefused_calls : (s.markRefused).calls = s.calls := rfl
@[simp] theorem State.markRefused_answers : (s.markRefused).answers = s.answers := rfl

/-! ### setPort -/

@[simp] theorem State.setPort_cfg (rest : Bytes) : (s.setPort rest).cfg = s.cfg := rfl
@[simp] theorem State.setPort_buf (rest : Bytes) : (s.setPort rest).buf = s.buf := rfl
@[simp] theorem State.setPort_rsState (rest : Bytes) : (s.setPort rest).rsState = s.rsState := rfl
@[simp] theorem State.setPort_refused (rest : Bytes) : (s.setPort rest).refused = s.refused := rfl
@[simp] theorem State.setPort_port (rest : Bytes) : (s.setPort rest).port = rest := rfl
@[simp] theorem State.setPort_txDraws (rest : Bytes) : (s.setPort rest).txDraws = s.txDraws := rfl
@[simp] theorem State.setPort_txDrawn (rest : Bytes) : (s.setPort rest).txDrawn = s.txDrawn := rfl
@[simp] theorem State.setPort_calls (rest : Bytes) : (s.setPort rest).calls = s.calls := rfl
@[simp] theorem State.setPort_answers (rest : Bytes) : (s.setPort rest).answers = s.answers := rfl

/-! ### present -/

@[simp] theorem State.present_cfg (b : Bytes) : (s.present b).cfg = s.cfg := rfl
@[simp] theorem State.present_buf (b : Bytes) : (s.present b).buf = s.buf := rfl
@[simp] theorem State.present_rsState (b : Bytes) : (s.present b).rsState = s.rsState := rfl
@[simp] theorem State.present_refused (b : Bytes) : (s.present b).refused = s.refused := rfl
@[simp] theorem State.present_port (b : Bytes) : (s.present b).port = s.port ++ b := rfl
@[simp] theorem State.present_txDraws (b : Bytes) : (s.present b).txDraws = s.txDraws := rfl
@[simp] theorem State.present_txDrawn (b : Bytes) : (s.present b).txDrawn = s.txDrawn := rfl
@[simp] theorem State.present_calls (b : Bytes) : (s.present b).calls = s.calls := rfl
@[simp] theorem State.present_answers (b : Bytes) : (s.present b).answers = s.answers := rfl

/-! ### supplyDraw -/

@[simp] theorem State.supplyDraw_cfg (d : TxDraw) : (s.supplyDraw d).cfg = s.cfg := rfl
@[simp] theorem State.supplyDraw_buf (d : TxDraw) : (s.supplyDraw d).buf = s.buf := rfl
@[simp] theorem State.supplyDraw_rsState (d : TxDraw) : (s.supplyDraw d).rsState = s.rsState := rfl
@[simp] theorem State.supplyDraw_refused (d : TxDraw) : (s.supplyDraw d).refused = s.refused := rfl
@[simp] theorem State.supplyDraw_port (d : TxDraw) : (s.supplyDraw d).port = s.port := rfl
@[simp] theorem State.supplyDraw_txDraws (d : TxDraw) : (s.supplyDraw d).txDraws = s.txDraws ++ [d] := rfl
@[simp] theorem State.supplyDraw_txDrawn (d : TxDraw) : (s.supplyDraw d).txDrawn = s.txDrawn := rfl
@[simp] theorem State.supplyDraw_calls (d : TxDraw) : (s.supplyDraw d).calls = s.calls := rfl
@[simp] theorem State.supplyDraw_answers (d : TxDraw) : (s.supplyDraw d).answers = s.answers := rfl

/-! ### One step -/

/-- A step with a whole request at the port is that request's meaning, the rest of the port left. -/
theorem step_of_fetch {s : State} {i : Instr} {rest : Bytes} (h : fetch s.port = some (i, rest)) :
    step s = exec i (s.setPort rest) := by
  simp [step, h]

/-- What a step can do: wait, or run the request that the port holds. -/
theorem step_cases : (fetch s.port = none ∧ step s = .next s) ∨
    ∃ i rest, fetch s.port = some (i, rest) ∧ step s = exec i (s.setPort rest) := by
  cases h : fetch s.port with
  | none => exact .inl ⟨rfl, by simp [step, h]⟩
  | some x => exact .inr ⟨x.1, x.2, rfl, step_of_fetch h⟩

/-! ### Reset -/

@[simp] theorem State.powerOn_cfg (cfg : Config) : (State.powerOn cfg).cfg = cfg := rfl
@[simp] theorem State.powerOn_buf (cfg : Config) : (State.powerOn cfg).buf = [] := rfl
@[simp] theorem State.powerOn_rsState (cfg : Config) : (State.powerOn cfg).rsState = .accumulating := rfl
@[simp] theorem State.powerOn_refused (cfg : Config) : (State.powerOn cfg).refused = false := rfl
@[simp] theorem State.powerOn_port (cfg : Config) : (State.powerOn cfg).port = [] := rfl
@[simp] theorem State.powerOn_txDraws (cfg : Config) : (State.powerOn cfg).txDraws = [] := rfl
@[simp] theorem State.powerOn_txDrawn (cfg : Config) : (State.powerOn cfg).txDrawn = 0 := rfl
@[simp] theorem State.powerOn_calls (cfg : Config) : (State.powerOn cfg).calls = [] := rfl
@[simp] theorem State.powerOn_answers (cfg : Config) : (State.powerOn cfg).answers = [] := rfl

/-! ### Ends of a request -/

theorem State.respond_eq (r : Resp) : s.respond r = .next (s.logAnswer (.response r)) := rfl

theorem State.refuse_eq (why : RefuseReason) : s.refuse why = .next (s.markRefused.logAnswer (.refused why)) := rfl

theorem State.setPort_port_self : s.setPort s.port = s := rfl

theorem State.setPort_setPort (a b : Bytes) : (s.setPort a).setPort b = s.setPort b := rfl

end Sys2Proof.Machine
end

