-- ==== Sys2Proof/Laws/Reassembler.lean ====
section
/-! SUPPORT. What the extraction loop and the drop can do (spec/41_stream_reassembler.md R90 to R95). -/

namespace Sys2Proof.Machine

/-- EXTRACT on a split buffer: the frame is what lies between the markers, what follows the end marker stays. -/
theorem extractFrame_of_split {s : State} {noise f tail : Bytes} (hb : FirstFrame s.cfg s.buf noise f tail) :
    extractFrame s noise.length (noise.length + 2 + f.length)
      = (f, { s with buf := tail, rsState := .accumulating }) := by
  simp only [extractFrame, State.consumeBuf, State.setRsState, slice_of_split _ hb, drop_of_split _ hb]

/-- The loop, run with enough fuel from ACCUMULATING, emits the frames of a segmentation of the buffer, keeps its
residue and changes nothing else. -/
theorem extractAll_spec (fuel : Nat) (s : State) (out : List Bytes) (hf : s.buf.length / 4 ≤ fuel)
    (hr : s.rsState = .accumulating) :
    ∃ fs residue, extractAll fuel s out = (out ++ fs, { s with buf := residue }) ∧
      Segmented s.cfg s.buf fs residue := by
  induction fuel generalizing s out with
  | zero =>
    exact ⟨[], s.buf, by simp [extractAll], rfl, not_holdsPair_of_short _ (by omega)⟩
  | succ fuel ih =>
    unfold extractAll
    cases hp : firstPair s.cfg s.buf with
    | none => exact ⟨[], s.buf, by simp, rfl, (firstPair_eq_none_iff _ _).mp hp⟩
    | some ij =>
      obtain ⟨noise, f, tail, hb, hi, hj⟩ := firstPair_split _ s.buf ij.1 ij.2 hp
      have hx : extractFrame s ij.1 ij.2 = (f, { s with buf := tail, rsState := .accumulating }) := by
        rw [hi, hj]; exact extractFrame_of_split hb
      have hlen := congrArg List.length hb.1
      simp [Marker.bytes] at hlen
      obtain ⟨fs, residue, heq, hseg⟩ := ih { s with buf := tail, rsState := .accumulating } (out ++ [f])
        (by simp only; omega) rfl
      refine ⟨f :: fs, residue, ?_, noise, tail, hb, hseg⟩
      simp only [hx, heq]
      simp [hr]

/-- DROP: over the ceiling the buffer is cleared, else the state stays as it is. -/
theorem dropOverflow_spec (s : State) :
    (s.cfg.ceiling < s.buf.length ∧ dropOverflow s = (true, s.clearBuf)) ∨
      (s.buf.length ≤ s.cfg.ceiling ∧ dropOverflow s = (false, s)) := by
  unfold dropOverflow overflows
  by_cases h : s.cfg.ceiling < s.buf.length
  · exact .inl ⟨h, by simp [h]⟩
  · exact .inr ⟨by omega, by simp [h]⟩

theorem chunkTooLong_eq_false_iff (cfg : Config) (chunk : Bytes) :
    chunkTooLong cfg chunk = false ↔ ∀ m, cfg.maxChunk = some m → chunk.length ≤ m := by
  unfold chunkTooLong
  cases cfg.maxChunk <;> simp

end Sys2Proof.Machine
end

