-- ==== Sys2Proof/Tests/Slice0.lean ====
section
/-! SUPPORT. Small tests. Expected values come from spec/95_test_vectors.md and from the tables of
spec/30_encoding.md, not from the model. The last part names, for each statement with hypotheses, states and operands
that meet them. -/

namespace Sys2Proof.Machine.Slice0

/-- A state with a given buffer, and one pair of draws. -/
def testState (buf : Bytes) (d : TxDraw) : State := { State.reset with buf := buf, txDraws := [d] }

/-- The same with a ceiling of 8 bytes and chunks of at most 6, to reach the limits with few bytes. -/
def tinyState (buf : Bytes) : State :=
  { State.reset with cfg := { defaultConfig with ceiling := 8, maxChunk := some 6 }, buf := buf }

/-- The state after reset with a given buffer and given bytes at the port. -/
def portState (buf port : Bytes) : State := { State.reset with buf := buf, port := port }

/-! ## WellFormed: an ill-formed term for each check -/

/-- `n` zero bytes; the lengths of the limit tests stay symbolic until `omega` compares them. -/
def zeros (n : Nat) : Bytes := List.replicate n 0x00

theorem lengthFits_zeros (n : Nat) : lengthFits (zeros n) = decide (n < 2 ^ 32) := by
  rw [lengthFits, zeros, List.length_replicate]

theorem test_encode_over_long_is_ill_formed : (Instr.encode (zeros (2 ^ 32))).wellFormed = false := by
  rw [Instr.wellFormed, lengthFits_zeros, decide_eq_false_iff_not]
  omega

theorem test_receive_over_long_is_ill_formed : (Instr.receive (zeros (2 ^ 32))).wellFormed = false := by
  rw [Instr.wellFormed, lengthFits_zeros, decide_eq_false_iff_not]
  omega

theorem test_reserved_over_long_is_ill_formed : (Instr.reserved 0x00 (zeros (2 ^ 32))).wellFormed = false := by
  rw [Instr.wellFormed, lengthFits_zeros, decide_eq_false (by omega), Bool.false_and]

theorem test_reserved_with_a_defined_op_byte_is_ill_formed :
    (Instr.reserved 0x01 []).wellFormed = false ∧ (Instr.reserved 0x02 [0x41]).wellFormed = false ∧
      (Instr.reserved 0x03 []).wellFormed = false := by decide

theorem test_longest_data_is_well_formed : (Instr.receive (zeros (2 ^ 32 - 1))).wellFormed = true := by
  rw [Instr.wellFormed, lengthFits_zeros, decide_eq_true_iff]
  omega

/-! ## Decoding: words from 30_encoding.md R60, R61 and 95_test_vectors.md V2.3 -/

theorem test_decode_encode : decode [0x01, 0x00, 0x00, 0x00, 0x02, 0x41, 0x42] = .ok (.encode [0x41, 0x42]) := by decide

theorem test_decode_receive :
    decode [0x02, 0x00, 0x00, 0x00, 0x03, 0x6E, 0x6F, 0x69] = .ok (.receive [0x6E, 0x6F, 0x69]) := by decide

theorem test_decode_reset : decode [0x03, 0x00, 0x00, 0x00, 0x00] = .ok .reset := by decide

theorem test_decode_reserved : decode [0x00, 0x00, 0x00, 0x00, 0x00] = .ok (.reserved 0x00 []) := by decide

theorem test_decode_reserved_high_bits : decode [0x81, 0x00, 0x00, 0x00, 0x01, 0x41] = .ok (.reserved 0x81 [0x41]) := by
  decide

theorem test_decode_reset_with_data : decode [0x03, 0x00, 0x00, 0x00, 0x01, 0xFF] = .ok (.reserved 0x03 [0xFF]) := by
  decide

theorem test_decode_head_missing : decode [0x02, 0x00, 0x00] = .incomplete := by decide

theorem test_decode_data_missing : decode [0x01, 0x00, 0x00, 0x00, 0x02, 0x41] = .incomplete := by decide

theorem test_decode_two_requests :
    decode ([0x03, 0x00, 0x00, 0x00, 0x00] ++ [0x03, 0x00, 0x00, 0x00, 0x00]) = .trailing := by decide

theorem test_length_is_big_endian : lengthField 0x01 0x02 0x03 0x04 = 16909060 := by decide

theorem test_table_words : [0, 1, 2, 3].map (decodeTableWord 8)
    = [some (.reserved 0x00 []), some (.encode []), some (.receive []), some .reset] := by decide

/-! ## One step: vectors of 95_test_vectors.md -/

/-- E9: a short write leaves the accepted prefix on the wire. -/
theorem test_encode_short_write : ∃ t, exec (.encode [0x41]) (testState [] ⟨true, 5⟩) = .next t ∧
    t.answers = [.response ⟨.notSentShortWrite, [], false⟩] ∧ t.wire = [0x7E, 0x00, 0x0F, 0x10, 0x01] :=
  ⟨_, rfl, by decide, by decide⟩

/-- E1: the frame of "A", accepted in full. -/
theorem test_encode_frame : ∃ t, exec (.encode [0x41]) (testState [] ⟨true, 19⟩) = .next t ∧
    t.answers = [.response ⟨.ok, [], false⟩] ∧
    t.wire.take 5 = [0x7E, 0x00, 0x0F, 0x10, 0x01] ∧
    t.wire.drop 5 = List.replicate 6 0x00 ++ [0xFF, 0xFF, 0xFF, 0xFE] ++ [0x00, 0x00, 0x41, 0xB2] :=
  ⟨_, rfl, by decide, by decide, by decide⟩

/-- X7 and X5 in one chunk: noise before and after, and markers that must not overlap. -/
theorem test_receive_markers : ∃ t, exec (.receive (ascii "x*//*/*/w")) State.reset = .next t ∧
    t.answers = [.response ⟨.ok, [ascii "/"], false⟩] ∧ t.buf = ascii "w" := ⟨_, rfl, by decide, by decide⟩

/-- X17 with a ceiling of 4 bytes: the frame is delivered, then the residue of 5 bytes is dropped. -/
theorem test_receive_drop_after_frame :
    ∃ t, exec (.receive (ascii "/*a*/xxxxx")) { State.reset with cfg := { defaultConfig with ceiling := 4 } } = .next t ∧
      t.answers = [.response ⟨.rxDropped, [ascii "a"], true⟩] ∧ t.buf = [] := ⟨_, rfl, by decide, by decide⟩

/-- R6: the markers are a matter of the configuration. -/
theorem test_receive_other_markers :
    ∃ t, exec (.receive (ascii "/*<<a>>*/"))
        { State.reset with cfg := { defaultConfig with startMark := ⟨0x3C, 0x3C⟩, endMark := ⟨0x3E, 0x3E⟩ } } = .next t ∧
      t.answers = [.response ⟨.ok, [ascii "a"], false⟩] ∧ t.buf = ascii "*/" := ⟨_, rfl, by decide, by decide⟩

/-- R10: a quoted string is its ASCII codes. -/
theorem test_ascii : ascii "/*A~" = [0x2F, 0x2A, 0x41, 0x7E] := by decide

/-- D1 and D15: RESET empties the buffer and leaves the mark. -/
theorem test_reset_keeps_the_mark :
    ∃ t, step (portState [0x2F, 0x2A, 0x36] [0x03, 0x00, 0x00, 0x00, 0x00]).markRefused = .next t ∧
      t.buf = [] ∧ t.refused = true ∧ t.port = [] :=
  ⟨_, step_of_fetch (i := .reset) (rest := []) (by decide), rfl, rfl, rfl⟩

/-- D4: RESET with data is refused and leaves the buffer. -/
theorem test_illegal_keeps_the_buffer :
    ∃ t, step (portState [0x2F, 0x2A, 0x36] [0x03, 0x00, 0x00, 0x00, 0x01, 0xFF]) = .next t ∧
      t.buf = [0x2F, 0x2A, 0x36] ∧ t.refused = true ∧ t.answers = [.refused .illegalRequest] :=
  ⟨_, step_of_fetch (i := .reserved 0x03 [0xFF]) (rest := []) (by decide), rfl, rfl, rfl⟩

/-- R57: the frame of E16 is well-formed, and with another checksum it is not. -/
theorem test_frame_well_formed :
    wellFormedFrame [0x7E, 0x00, 0x02, 0x41, 0x42, 0x7C] = true ∧
      wellFormedFrame [0x7E, 0x00, 0x02, 0x41, 0x42, 0x7D] = false := by decide

/-- R66: the three line forms, all byte forms, and the annotations. -/
theorem test_read_line :
    readLine "ENCODE \"A\" ++ x\"7E00\" ++ rep(0x61, 2) @conn=0 @acc=5".toList
        = some ⟨.encode [0x41, 0x7E, 0x00, 0x61, 0x61], some ⟨false, 5⟩⟩ ∧
      readLine "RECEIVE \"\\x2F*\"".toList = some ⟨.receive [0x2F, 0x2A], none⟩ ∧
      readLine "RESET".toList = some ⟨.reset, none⟩ ∧ readLine "ENCODE \"A\" @conn=2".toList = none := by decide

/-- R12: the least index at or after the start, up to the last one, and none. -/
theorem test_find : find (ascii "a/*b/*") (ascii "/*") 1 = some 1 ∧ find (ascii "a/*b/*") (ascii "/*") 2 = some 4 ∧
    find (ascii "a/*b/*") (ascii "/*") 5 = none := by decide

/-- Log entry 30: a backslash without `xHH`. -/
theorem test_lone_backslash : readLine "RECEIVE \"\\n\"".toList = none ∧ readLine "RECEIVE \"\\x2\"".toList = none := by
  decide

/-! ## Witnesses: states and operands that meet the hypotheses of the statements -/

theorem witness_wellFormed_of_each_constructor : (Instr.encode [0x41]).wellFormed = true ∧
    (Instr.receive []).wellFormed = true ∧ Instr.reset.wellFormed = true ∧ (Instr.reserved 0x04 []).wellFormed = true ∧
    (Instr.reserved 0x03 [0xFF]).wellFormed = true := by decide

/-- Lengths on both sides of the announced one, for each op byte's clause. -/
theorem witness_decoder_cases : ([0x01, 0x00, 0x00, 0x00] : Bytes).length < 5 ∧
    lengthField 0x00 0x00 0x00 0x01 = 1 ∧ ([] : Bytes).length < 1 ∧ 1 < ([0x41, 0x42] : Bytes).length ∧
    ([0x41] : Bytes).length = 1 ∧ lengthField 0x00 0x00 0x00 0x00 = 0 ∧ (0x04 : Byte) ≠ 0x03 ∧ (0x00 : Byte) ≠ 0x01 := by
  decide

theorem witness_step_runs : (tinyState []).setPort (encode .reset ++ [0x01])
    = { tinyState [] with port := encode .reset ++ [0x01] } ∧ Instr.reset.wellFormed = true := ⟨rfl, rfl⟩

theorem witness_step_waits : decode State.reset.port = .incomplete ∧
    decode ({ State.reset with port := [0x01, 0x00, 0x00, 0x00, 0x02, 0x41] } : State).port = .incomplete := by decide

theorem witness_table_word : decodeTableWord 8 3 = some .reset := by decide

theorem witness_requests_in_order : (∀ i ∈ [Instr.reset, .receive [0x2F]], i.wellFormed = true) ∧
    [Instr.reset, .receive [0x2F]].flatMap encode ++ [0x02]
      = [0x03, 0x00, 0x00, 0x00, 0x00] ++ [0x02, 0x00, 0x00, 0x00, 0x01, 0x2F] ++ [0x02] := by decide

/-- A request that ends with a response, and a whole request at the port after it. -/
theorem witness_response : ∃ t r, exec .reset (portState [0x2F] (encode (.receive [0x41]) ++ [0x02])) = .next t ∧
    newAnswers (portState [0x2F] (encode (.receive [0x41]) ++ [0x02])) t = [.response r] ∧
    t.port = encode (.receive [0x41]) ++ [0x02] ∧ (Instr.receive [0x41]).wellFormed = true :=
  ⟨_, _, rfl, rfl, rfl, rfl⟩

/-- A state with the boundary invariant, a partial frame in the buffer, and a step from it. -/
theorem witness_invariant : (portState [0x2F, 0x2A, 0x61] [0x02, 0x00, 0x00, 0x00, 0x01, 0x62]).Inv ∧
    ∃ t, step (portState [0x2F, 0x2A, 0x61] [0x02, 0x00, 0x00, 0x00, 0x01, 0x62]) = .next t ∧
      t.buf = [0x2F, 0x2A, 0x61, 0x62] :=
  ⟨⟨by decide, by decide, rfl⟩, _, step_of_fetch (i := .receive [0x62]) (rest := []) (by decide), by decide⟩

theorem witness_refused_step : ∃ t, step (portState [] [0x00, 0x00, 0x00, 0x00, 0x00]) = .next t ∧
    newAnswers (portState [] [0x00, 0x00, 0x00, 0x00, 0x00]) t = [.refused .illegalRequest] :=
  ⟨_, step_of_fetch (i := .reserved 0x00 []) (rest := []) (by decide), rfl⟩

theorem witness_two_steps : ∃ t, stepN 2 State.reset = .next t := ⟨_, rfl⟩

theorem witness_not_encode : ∀ cmd, Instr.receive [0x2F] ≠ .encode cmd ∧ Instr.reset ≠ .encode cmd ∧
    Instr.reserved 0x00 [] ≠ .encode cmd := by simp

/-- The clauses of ENCODE on the command's length: one byte too long, and the longest admitted. -/
theorem witness_command_lengths : 65521 < (zeros 65522).length ∧ 0 < (zeros 65521).length ∧ (zeros 65521).length ≤ 65521 := by
  rw [zeros, zeros, List.length_replicate, List.length_replicate]
  omega

/-- The clauses of ENCODE on the draws: both connection answers, and a draw within the frame. -/
theorem witness_encode_draws : (testState [] ⟨false, 0⟩).txDraw.connected = false ∧
    (testState [] ⟨true, 19⟩).txDraw.connected = true ∧
    (testState [] ⟨true, 19⟩).txDraw.accepted ≤ (frame (payload defaultConfig [0x41])).length := by decide

theorem witness_longest_payload : (zeros 65535).length ≤ 65535 := by
  rw [zeros, List.length_replicate]

theorem witness_handed_frame : ∃ t f k, exec (.encode [0x41]) (testState [] ⟨true, 5⟩) = .next t ∧
    TransportCall.write f k ∈ newCalls (testState [] ⟨true, 5⟩) t ∧ k = 5 :=
  ⟨_, _, _, rfl, .tail _ (.head _), rfl⟩

/-- Two states with one configuration and different buffers, draws and records, whose ENCODEs both reach Transport. -/
theorem witness_handed_frames_of_two_states : (testState [] ⟨true, 5⟩).cfg = (testState [0x2F] ⟨true, 19⟩).cfg ∧
    ∃ t f k, exec (.encode [0x41]) (testState [0x2F] ⟨true, 19⟩) = .next t ∧
      TransportCall.write f k ∈ newCalls (testState [0x2F] ⟨true, 19⟩) t :=
  ⟨rfl, _, _, _, rfl, .tail _ (.head _)⟩

theorem witness_permuted_commands : ([0x41, 0x42] : Bytes).Perm [0x42, 0x41] := by decide

theorem witness_two_encodes : (∀ c ∈ ([[0x41], [0x42, 0x43]] : List Bytes), 0 < c.length ∧ c.length ≤ 65521) ∧
    (∀ d ∈ [TxDraw.mk true 5, ⟨true, 20⟩], d.connected = true) ∧
    ({ State.reset with txDraws := [⟨true, 5⟩, ⟨true, 20⟩, ⟨false, 0⟩] } : State).txDraws
      = [⟨true, 5⟩, ⟨true, 20⟩] ++ [⟨false, 0⟩] := by decide

theorem witness_other_header_values :
    ({ defaultConfig with frameId := 0x02 } : Config).ceiling = State.reset.cfg.ceiling ∧
      ({ defaultConfig with frameId := 0x02 } : Config).maxChunk = State.reset.cfg.maxChunk ∧
      ({ defaultConfig with frameId := 0x02 } : Config).startMark = State.reset.cfg.startMark ∧
      ({ defaultConfig with frameId := 0x02 } : Config).endMark = State.reset.cfg.endMark := by decide

/-- A chunk one byte over the bound, and one at the bound. -/
theorem witness_chunk_bound : (∃ m, (tinyState []).cfg.maxChunk = some m ∧ m < (List.replicate 7 (0x78 : Byte)).length) ∧
    ∀ m, (tinyState []).cfg.maxChunk = some m → (List.replicate 6 (0x78 : Byte)).length ≤ m :=
  ⟨⟨6, rfl, by decide⟩, by simp [tinyState]⟩

/-- A residue of exactly the ceiling of 8 bytes is kept. -/
theorem witness_residue_at_the_ceiling : ∃ t, exec (.receive (ascii "xxxxxx")) (tinyState (ascii "xx")) = .next t ∧
    t.buf.length = (tinyState []).cfg.ceiling ∧ t.answers = [.response ⟨.ok, [], false⟩] :=
  ⟨_, rfl, by decide, by decide⟩

/-- Noise, one frame and a residue, cut as the statement asks. -/
theorem witness_segmented : Segmented defaultConfig (ascii "x" ++ ascii "/*a*/y") [ascii "a"] (ascii "y") ∧
    (ascii "y").length ≤ (tinyState (ascii "x")).cfg.ceiling :=
  ⟨⟨ascii "x", ascii "y", by unfold FirstFrame NoEarlierStart NoEarlierEnd; decide, rfl,
    not_holdsPair_of_short _ (by decide)⟩, by decide⟩

theorem witness_chunked_delivery : ∃ t, execAll [.receive [0x2F], .receive [0x2A, 0x61, 0x2A], .receive [0x2F]] (tinyState [])
      = .next t ∧ (∀ a ∈ newAnswers (tinyState []) t, ∃ fs, a = .response ⟨.ok, fs, false⟩) ∧
      newFrames (tinyState []) t = [[0x61]] := by
  refine ⟨_, rfl, ?_, by decide⟩
  intro a ha
  have : a ∈ [Answer.response ⟨.ok, [], false⟩, .response ⟨.ok, [], false⟩, .response ⟨.ok, [[0x61]], false⟩] := ha
  simp only [List.mem_cons, List.not_mem_nil, or_false] at this
  rcases this with rfl | rfl | rfl <;> exact ⟨_, rfl⟩

/-- A frame whose span is exactly the ceiling of 8 bytes, in chunks of at most 6, after a frame that ends in the middle
of the first chunk, the buffer holding a byte of noise. -/
theorem witness_frame_at_the_ceiling :
    (tinyState (ascii "x")).buf ++ [ascii "/*a*/x", ascii "//*ab*", ascii "*/y"].flatten
      = ascii "x/*a*/" ++ ascii "x//*ab**/y" ∧
    (ascii "x/*a*/").length ≤ ((tinyState (ascii "x")).buf ++ ascii "/*a*/x").length ∧
    Segmented (tinyState []).cfg (ascii "x/*a*/") [ascii "a"] [] ∧
    FirstFrame (tinyState []).cfg (ascii "x//*ab**/y") (ascii "x/") (ascii "ab*") (ascii "y") ∧
    frameSpan (ascii "x/") (ascii "ab*") = (tinyState []).cfg.ceiling ∧
    ChunksAdmitted (tinyState []).cfg [ascii "/*a*/x", ascii "//*ab*", ascii "*/y"] ∧
    Segmented (tinyState []).cfg [] [] [] := by
  refine ⟨by decide, by decide, ⟨ascii "x", [], by unfold FirstFrame NoEarlierStart NoEarlierEnd; decide, rfl,
    not_holdsPair_of_short _ (by decide)⟩, by unfold FirstFrame NoEarlierStart NoEarlierEnd; decide, by decide, ?_, rfl,
    not_holdsPair_of_short _ (by decide)⟩
  intro c hc m hm
  obtain rfl : 6 = m := by simpa [tinyState] using hm
  revert c
  decide

/-- The same stream, all of it: both spans within the ceiling, the second exactly the ceiling. -/
theorem witness_frames_within_the_ceiling : hasPair (tinyState (ascii "x")).cfg (ascii "x") = false ∧
    SegmentedWithinCeiling (tinyState []).cfg (ascii "x/*a*/x//*ab**/y") [ascii "a", ascii "ab*"] (ascii "y") :=
  ⟨by decide, ascii "x", ascii "x//*ab**/y", by unfold FirstFrame NoEarlierStart NoEarlierEnd; decide, by decide,
    ascii "x/", ascii "y", by unfold FirstFrame NoEarlierStart NoEarlierEnd; decide, by decide, rfl,
    not_holdsPair_of_short _ (by decide)⟩

/-- A frame whose span is one byte over a ceiling of 4, after one that the same chunk completes. -/
theorem witness_frame_over_the_ceiling : ascii "/*" ++ ascii "a*//*ab*"
      = ascii "/*a*/" ++ ([] ++ defaultConfig.startMark.bytes ++ ascii "ab" ++ [defaultConfig.endMark.first]) ∧
    Segmented defaultConfig (ascii "/*a*/") [ascii "a"] [] ∧ NoEarlierStart defaultConfig [] ∧
    NoEarlierEnd defaultConfig (ascii "ab") ∧ frameSpan [] (ascii "ab") = 4 + 1 ∧
    ChunksAdmitted { defaultConfig with ceiling := 4 } [ascii "a*//*ab*", ascii "/"] :=
  ⟨by decide, ⟨[], [], by unfold FirstFrame NoEarlierStart NoEarlierEnd; decide, rfl,
    not_holdsPair_of_short _ (by decide)⟩, by unfold NoEarlierStart; decide, by unfold NoEarlierEnd; decide, by decide,
    by simp [ChunksAdmitted, defaultConfig]⟩

/-- Bytes without a pair, of the two lengths at the default ceiling. -/
theorem witness_default_ceiling (n : Nat) : ¬ HoldsPair State.reset.cfg (List.replicate n 0x78) ∧
    (List.replicate n (0x78 : Byte)).length = n := by
  refine ⟨?_, by simp⟩
  rintro ⟨x, y, z, h⟩
  have hm : (0x2F : Byte) ∈ List.replicate n 0x78 := by
    rw [h]
    simp [Marker.bytes, State.reset, defaultConfig]
  exact absurd (List.eq_of_mem_replicate hm) (by decide)

/-- A RECEIVE that drops, and a later one that delivers a frame of its own bytes. -/
theorem witness_drop_then_frame : ∃ t u, exec (.receive [0x78, 0x2F]) (tinyState (List.replicate 7 0x78)) = .next t ∧
    newAnswers (tinyState (List.replicate 7 0x78)) t = [.response ⟨.rxDropped, [], true⟩] ∧
    execAll [.receive [0x2F, 0x2A, 0x61, 0x2A, 0x2F]] t = .next u ∧ newFrames t u = [[0x61]] :=
  ⟨_, _, rfl, by decide, rfl, by decide⟩

theorem witness_emitted_frame : ∃ t, exec (.receive [0x78, 0x2F, 0x2A, 0x2F, 0x2A, 0x2F]) State.reset = .next t ∧
    newFrames State.reset t = [[0x2F]] := ⟨_, rfl, by decide⟩

/-- A step that answers a request and leaves the mark clear. -/
theorem witness_claimable_run : ∃ t, stepN 1 (portState [] [0x03, 0x00, 0x00, 0x00, 0x00]) = .next t ∧ t.Claimable ∧
    t.answers = [.response ⟨.ok, [], false⟩] :=
  have h : stepN 1 (portState [] [0x03, 0x00, 0x00, 0x00, 0x00])
      = exec .reset ((portState [] [0x03, 0x00, 0x00, 0x00, 0x00]).setPort []) := by
    rw [stepN, step_of_fetch (i := .reset) (rest := []) (by decide)]
    rfl
  ⟨_, h.trans rfl, rfl, rfl⟩

theorem witness_capacity : (tinyState [0x78]).buf.length ≤ (tinyState [0x78]).cfg.ceiling ∧
    capacitySuffices (tinyState [0x78]).cfg 14 = true ∧ capacitySuffices (tinyState [0x78]).cfg 13 = false ∧
    chunkTooLong (tinyState [0x78]).cfg [0x78, 0x78] = false := by decide

theorem witness_reserved_bytes : (0x00 : Byte) ≠ 0x01 ∧ (0x04 : Byte) ≠ 0x02 ∧ ((0x03 : Byte) = 0x03 → ([0xFF] : Bytes) ≠ []) ∧
    (0x03 : Byte) :: (be32 ([0xFF] : Bytes).length ++ [0xFF] ++ [0x02]) = [0x03, 0x00, 0x00, 0x00, 0x01, 0xFF, 0x02] := by
  decide

/-- The texts of bytes and numbers, and a character that stands for itself in quotes. -/
theorem witness_texts : hexText [0x7E, 0x0A] = "7e0a".toList ∧ (hexText [0x7E, 0x0A]).map Char.toUpper = "7E0A".toList ∧
    decimalText [2, 0] = "20".toList ∧ decimalValue [2, 0] = 20 ∧ ([2, 0] : List (Fin 10)) ≠ [] ∧
    '~'.toNat < 128 ∧ '~' ≠ '"' ∧ '~' ≠ '\\' := by
  refine ⟨?_, ?_, ?_, ?_, ?_, ?_, ?_, ?_⟩ <;> decide

theorem witness_line : readLine "ENCODE \"A\"".toList = some ⟨.encode [0x41], some ⟨true, 19⟩⟩ ∧ State.reset.port = [] ∧
    State.reset.txDraws = [] := by decide

end Sys2Proof.Machine.Slice0
end

section
/-! PROOF. The search of Machine/Operands.lean in the words of spec/00_scope.md R12, where an occurrence is a slice. -/

namespace Sys2Proof.Machine

/-- The occurrence of R12, a slice inside `s`, said as the laws of `find` say it: what begins at `i` begins with `m`. -/
theorem slice_occurrence_iff_prefix_drop (s m : Bytes) (i : Nat) :
    (i + m.length ≤ s.length ∧ slice s i (i + m.length) = m) ↔ (i ≤ s.length ∧ m <+: s.drop i) := by
  rw [slice, Nat.add_sub_cancel_left, eq_comm, ← List.prefix_iff_eq_take]
  constructor
  · rintro ⟨hfits, hpre⟩
    exact ⟨by omega, hpre⟩
  · rintro ⟨hi, hpre⟩
    have hlen : m.length ≤ s.length - i := by simpa using hpre.length_le
    exact ⟨by omega, hpre⟩

/-- What `find` finds, said by slices: an occurrence at or after the start, and no larger than any other. -/
theorem find_eq_some_iff_least_slice (s m : Bytes) (start i : Nat) :
    find s m start = some i ↔ (start ≤ i ∧ i + m.length ≤ s.length ∧ slice s i (i + m.length) = m) ∧
      ∀ k, start ≤ k → k + m.length ≤ s.length → slice s k (k + m.length) = m → i ≤ k := by
  rw [find_eq_some_iff, slice_occurrence_iff_prefix_drop]
  constructor
  · rintro ⟨hstart, hi, hpre, hleast⟩
    refine ⟨⟨hstart, hi, hpre⟩, fun k hk hfits hslice => ?_⟩
    obtain ⟨-, hkpre⟩ := (slice_occurrence_iff_prefix_drop s m k).mp ⟨hfits, hslice⟩
    exact not_lt.mp fun hlt => hleast k hk hlt hkpre
  · rintro ⟨⟨hstart, hi, hpre⟩, hleast⟩
    refine ⟨hstart, hi, hpre, fun k hk hlt hkpre => ?_⟩
    obtain ⟨hfits, hslice⟩ := (slice_occurrence_iff_prefix_drop s m k).mpr ⟨by omega, hkpre⟩
    exact absurd (hleast k hk hfits hslice) (not_le.mpr hlt)

/-- An occurrence at or after the start is an infix of what the search looks through. -/
theorem find_ne_none_of_slice {s m : Bytes} {start i : Nat} (hstart : start ≤ i) (hfits : i + m.length ≤ s.length)
    (hslice : slice s i (i + m.length) = m) : find s m start ≠ none := by
  obtain ⟨hi, hpre⟩ := (slice_occurrence_iff_prefix_drop s m i).mp ⟨hfits, hslice⟩
  have hsuffix : s.drop i <:+ s.drop start := List.drop_suffix_drop_left s hstart
  exact fun hnone => (find_eq_none_iff s m start).mp hnone (by omega) (hpre.isInfix.trans hsuffix.isInfix)

/-- Settles O53: the found index is the least occurrence, and any occurrence makes the search find one. -/
theorem findIsTheLeastOccurrence : Obligations.FindIsTheLeastOccurrence := by
  unfold Obligations.FindIsTheLeastOccurrence
  intro s m start
  refine ⟨find_eq_some_iff_least_slice s m start, ?_, fun hno => ?_⟩
  · exact fun hnone i hstart hfits hslice => find_ne_none_of_slice hstart hfits hslice hnone
  · rw [Option.eq_none_iff_forall_ne_some]
    intro i hfound
    obtain ⟨⟨hstart, hfits, hslice⟩, -⟩ := (find_eq_some_iff_least_slice s m start i).mp hfound
    exact hno i hstart hfits hslice

end Sys2Proof.Machine
end

section
/-! PROOF. The BinaryFrame byte by byte (spec/20_memory.md R38, spec/30_encoding.md R52, R55). -/

namespace Sys2Proof.Machine

/-- `be16`, byte by byte (R11). -/
theorem be16_eq (v : Nat) : be16 v = [BitVec.ofNat 8 (v / 256), BitVec.ofNat 8 (v % 256)] := by
  have hlow : BitVec.ofNat 8 v = BitVec.ofNat 8 (v % 256) := BitVec.eq_of_toNat_eq (by simp)
  simp [be16, beBytes, hlow]

/-- The subtraction of R55 stays within a byte. -/
theorem checksum_toNat (p : Bytes) : (checksum p).toNat = 0xFF - byteSum p % 256 := by
  rw [checksum, BitVec.toNat_ofNat, Nat.mod_eq_of_lt (by omega)]

/-- R52: the three bytes before the payload, then the payload and its checksum. -/
theorem frame_eq_cons (p : Bytes) : frame p =
    0x7E :: BitVec.ofNat 8 (p.length / 256) :: BitVec.ofNat 8 (p.length % 256) :: (p ++ [checksum p]) := by
  simp [frame, startDelim, be16_eq]

@[simp] theorem frame_length (p : Bytes) : (frame p).length = p.length + 4 := by
  simp [frame_eq_cons]

/-- What stands from offset 3 on. -/
theorem frame_getElem?_three_add (p : Bytes) (k : Nat) : (frame p)[3 + k]? = (p ++ [checksum p])[k]? := by
  rw [frame_eq_cons, Nat.add_comm]
  rfl

/-- Settles O22. The bound on the length only keeps it within its two bytes: each byte stands as stated without it. -/
theorem binaryFrameBytesByOffset : Obligations.BinaryFrameBytesByOffset := by
  unfold Obligations.BinaryFrameBytesByOffset
  intro p _
  refine ⟨frame_length p, ?_, ?_, ?_, fun k hk => ?_, checksum p, ?_, checksum_toNat p⟩
  · simp [frame_eq_cons]
  · simp [frame_eq_cons]
  · simp [frame_eq_cons]
  · rw [frame_getElem?_three_add, List.getElem?_append_left hk]
  · rw [frame_getElem?_three_add, List.getElem?_concat_length]

end Sys2Proof.Machine
end

section
/-! PROOF. ENCODE exit by exit (spec/40_frame_encoder.md R70 to R77). -/

namespace Sys2Proof.Machine

/-! ### The tests and the answer of Transport, as numbers -/

theorem cmdEmpty_iff (cmd : Bytes) : cmdEmpty cmd = true ↔ cmd.length = 0 := beq_iff_eq

/-- `MAX_CMD` is 65521 (R7). -/
theorem cmdTooLong_iff (cmd : Bytes) : cmdTooLong cmd = true ↔ 65521 < cmd.length := decide_eq_true_iff

theorem acceptedOf_le_length (d : TxDraw) (b : Bytes) : d.acceptedOf b ≤ b.length := Nat.min_le_right ..

theorem acceptedOf_eq_accepted {d : TxDraw} {b : Bytes} (h : d.accepted ≤ b.length) : d.acceptedOf b = d.accepted :=
  Nat.min_eq_left h

theorem writeStatus_of_eq {k len : Nat} (h : k = len) : writeStatus k len = .ok := if_pos h

theorem writeStatus_of_lt {k len : Nat} (h : k < len) : writeStatus k len = .notSentShortWrite := if_neg h.ne

/-! ### One equation per exit -/

section Exits

variable {cmd : Bytes} {s : State}

/-- R72. -/
theorem exec_encode_of_empty (h : cmd.length = 0) :
    exec (.encode cmd) s = s.nextDraw.respond (.plain .notSentEmpty) := by
  simp [exec, execEncode, cmdEmpty_iff, h]

/-- R73. -/
theorem exec_encode_of_tooLong (h : 65521 < cmd.length) :
    exec (.encode cmd) s = s.nextDraw.respond (.plain .notSentTooLong) := by
  have hne : cmd.length ≠ 0 := by omega
  simp [exec, execEncode, cmdEmpty_iff, cmdTooLong_iff, hne, h]

/-- R74. -/
theorem exec_encode_of_disconnected (hpos : 0 < cmd.length) (hle : cmd.length ≤ 65521)
    (hconn : s.txDraw.connected = false) :
    exec (.encode cmd) s = (s.nextDraw.txConnected s.txDraw).respond (.plain .notSentDisconnected) := by
  simp [exec, execEncode, cmdEmpty_iff, cmdTooLong_iff, hpos.ne', hle.not_gt, hconn]

/-- R75 to R77. -/
theorem exec_encode_of_connected (hpos : 0 < cmd.length) (hle : cmd.length ≤ 65521)
    (hconn : s.txDraw.connected = true) :
    exec (.encode cmd) s =
      ((s.nextDraw.txConnected s.txDraw).txWrite s.txDraw (frame (payload s.cfg cmd))).respond
        (.plain (writeStatus (s.txDraw.acceptedOf (frame (payload s.cfg cmd))) (frame (payload s.cfg cmd)).length)) := by
  simp [exec, execEncode, cmdEmpty_iff, cmdTooLong_iff, hpos.ne', hle.not_gt, hconn]

end Exits

/-- Settles O20: each command and draw takes one of the four exits, and the premises of the other three exclude it. -/
theorem encodeTakesTheExitsInOrder : Obligations.EncodeTakesTheExitsInOrder := by
  unfold Obligations.EncodeTakesTheExitsInOrder
  intro cmd s
  rcases Nat.eq_zero_or_pos cmd.length with hzero | hpos
  · exact ⟨_, _, exec_encode_of_empty hzero, rfl, fun _ => ⟨rfl, rfl⟩, by omega, by omega, by omega⟩
  rcases Nat.lt_or_ge 65521 cmd.length with hlong | hle
  · exact ⟨_, _, exec_encode_of_tooLong hlong, rfl, by omega, fun _ => ⟨rfl, rfl⟩, by omega, by omega⟩
  cases hconn : s.txDraw.connected with
  | false =>
    refine ⟨_, _, exec_encode_of_disconnected hpos hle hconn, rfl, by omega, by omega, fun _ _ _ => ⟨rfl, ?_⟩,
      by simp⟩
    simp [hconn]
  | true =>
    refine ⟨_, _, exec_encode_of_connected hpos hle hconn, rfl, by omega, by omega, by simp, fun _ _ _ => ?_⟩
    exact ⟨_, frame (payload s.cfg cmd), s.txDraw.acceptedOf (frame (payload s.cfg cmd)), rfl, rfl,
      acceptedOf_le_length .., acceptedOf_eq_accepted, by simp [hconn], writeStatus_of_eq, writeStatus_of_lt⟩

end Sys2Proof.Machine
end

section
/-! PROOF. The request encoding read back, and the split of the port (spec/30_encoding.md R60 to R64). -/

namespace Sys2Proof

/-! ### The opcode map -/

/-- R63 by op byte: nothing but ENCODE, RECEIVE and the bare RESET is legal. -/
theorem isReserved_iff (opb : Byte) (data : Bytes) :
    isReserved opb data = true ↔ opb ≠ 0x01 ∧ opb ≠ 0x02 ∧ (opb = 0x03 → data ≠ []) := by
  have hbits : ∀ b : Byte, (b = 0 ∨ b >>> 2 ≠ 0) ↔ b ≠ 1 ∧ b ≠ 2 ∧ b ≠ 3 := by decide
  have hsplit : isReserved opb data = true ↔ (opb = 0 ∨ opb >>> 2 ≠ 0) ∨ (opb = 3 ∧ data ≠ []) := by
    simp [isReserved]
  rw [hsplit, hbits]
  by_cases hreset : opb = 3
  · subst hreset
    simp
  · tauto

theorem classify_of_isReserved {opb : Byte} {data : Bytes} (h : isReserved opb data = true) :
    classify opb data = .reserved opb data := by
  obtain ⟨hencode, hreceive, hreset⟩ := (isReserved_iff opb data).mp h
  rw [classify, if_neg hencode, if_neg hreceive, if_neg fun hb => hreset hb.1 hb.2]

/-- The map reads the op byte and the operand of a well-formed request as that request. -/
theorem classify_of_wellFormed {i : Instr} (h : i.wellFormed = true) : classify (opByte i) (operandBytes i) = i := by
  cases i with
  | encode cmd => rfl
  | receive chunk => rfl
  | reset => rfl
  | reserved opb data =>
    obtain ⟨-, hres⟩ : lengthFits data = true ∧ isReserved opb data = true := by simpa [Instr.wellFormed] using h
    exact classify_of_isReserved hres

/-- What the map reads has the op byte and the data it was read from, and is well-formed where the data fits. -/
theorem classify_spec (opb : Byte) (data : Bytes) : opByte (classify opb data) = opb ∧
    operandBytes (classify opb data) = data ∧ (data.length < 2 ^ 32 → (classify opb data).wellFormed = true) := by
  unfold classify
  split
  case isTrue h => exact ⟨h.symm, rfl, fun hfit => by simpa [Instr.wellFormed, lengthFits] using hfit⟩
  case isFalse hencode =>
    split
    case isTrue h => exact ⟨h.symm, rfl, fun hfit => by simpa [Instr.wellFormed, lengthFits] using hfit⟩
    case isFalse hreceive =>
      split
      case isTrue h => exact ⟨h.1.symm, h.2.symm, fun _ => rfl⟩
      case isFalse hbare =>
        refine ⟨rfl, rfl, fun hfit => ?_⟩
        have hres := (isReserved_iff opb data).mpr ⟨hencode, hreceive, fun ho hd => hbare ⟨ho, hd⟩⟩
        simpa [Instr.wellFormed, lengthFits, hres] using hfit

/-! ### `decode` -/

/-- R64 on a whole head whose length field is the data's length. -/
theorem decode_cons_of_length_eq {opb b1 b2 b3 b4 : Byte} {data : Bytes} (h : data.length = lengthField b1 b2 b3 b4) :
    decode (opb :: b1 :: b2 :: b3 :: b4 :: data) = .ok (classify opb data) := by
  simp [decode, h]

/-- A sequence that decodes to a request is a head and exactly the data its length field announces. -/
theorem decode_eq_ok_iff (r : Bytes) (i : Instr) : decode r = .ok i ↔ ∃ opb b1 b2 b3 b4 data,
    r = opb :: b1 :: b2 :: b3 :: b4 :: data ∧ data.length = lengthField b1 b2 b3 b4 ∧ classify opb data = i := by
  constructor
  · intro h
    unfold decode at h
    split at h
    case h_1 opb b1 b2 b3 b4 data =>
      split at h
      case isTrue => cases h
      case isFalse hge =>
        split at h
        case isTrue => cases h
        case isFalse hle => exact ⟨opb, b1, b2, b3, b4, data, rfl, by omega, by simpa using h⟩
    case h_2 => cases h
  · rintro ⟨opb, b1, b2, b3, b4, data, rfl, hlen, rfl⟩
    exact decode_cons_of_length_eq hlen

theorem lengthField_lt (b1 b2 b3 b4 : Byte) : lengthField b1 b2 b3 b4 < 2 ^ 32 := by
  have h1 := b1.isLt
  have h2 := b2.isLt
  have h3 := b3.isLt
  have h4 := b4.isLt
  unfold lengthField
  omega

/-- The four digits of a length field to the base 256 are its bytes. -/
theorem lengthField_digits (b1 b2 b3 b4 : Byte) :
    lengthField b1 b2 b3 b4 / 2 ^ 24 % 2 ^ 8 = b1.toNat ∧ lengthField b1 b2 b3 b4 / 2 ^ 16 % 2 ^ 8 = b2.toNat ∧
      lengthField b1 b2 b3 b4 / 2 ^ 8 % 2 ^ 8 = b3.toNat ∧ lengthField b1 b2 b3 b4 % 2 ^ 8 = b4.toNat := by
  have h1 := b1.isLt
  have h2 := b2.isLt
  have h3 := b3.isLt
  have h4 := b4.isLt
  unfold lengthField
  omega

/-- The converse of `lengthField_be32`. -/
theorem be32_lengthField (b1 b2 b3 b4 : Byte) : be32 (lengthField b1 b2 b3 b4) = [b1, b2, b3, b4] := by
  have hdigits := lengthField_digits b1 b2 b3 b4
  rw [be32_eq]
  simpa [← BitVec.toNat_inj] using hdigits

theorem decode_encode {i : Instr} (h : i.wellFormed = true) : decode (encode i) = .ok i := by
  have hlen := lengthField_be32 _ (instr_wellFormed_lengthFits i h)
  rw [encode, be32_eq]
  simp only [List.cons_append, List.nil_append]
  rw [decode_cons_of_length_eq hlen.symm, classify_of_wellFormed h]

theorem encode_of_decode_eq_ok {r : Bytes} {i : Instr} (h : decode r = .ok i) : i.wellFormed = true ∧ encode i = r := by
  obtain ⟨opb, b1, b2, b3, b4, data, rfl, hlen, rfl⟩ := (decode_eq_ok_iff r i).mp h
  obtain ⟨hop, hdata, hwf⟩ := classify_spec opb data
  refine ⟨hwf (hlen ▸ lengthField_lt b1 b2 b3 b4), ?_⟩
  simp [encode, hop, hdata, hlen, be32_lengthField]

/-! ### The next request at the port -/

theorem fetch_encode_append {i : Instr} (h : i.wellFormed = true) (rest : Bytes) :
    fetch (encode i ++ rest) = some (i, rest) :=
  fetch_of_split _ rest i (requestLength_encode_append i rest (instr_wellFormed_lengthFits i h)) (decode_encode h)

/-- A head and at least its announced data: the split at the length field finds a whole request. -/
theorem fetch_cons {opb b1 b2 b3 b4 : Byte} {data : Bytes} {n : Nat} (hn : lengthField b1 b2 b3 b4 = n)
    (hle : n ≤ data.length) :
    fetch (opb :: b1 :: b2 :: b3 :: b4 :: data) = some (classify opb (data.take n), data.drop n) := by
  have hlen : (data.take n).length = lengthField b1 b2 b3 b4 := by rw [hn, List.length_take_of_le hle]
  obtain ⟨hwf, hbytes⟩ := encode_of_decode_eq_ok (decode_cons_of_length_eq (opb := opb) hlen)
  rw [← fetch_encode_append hwf, hbytes]
  simp only [List.cons_append, List.take_append_drop]

theorem fetch_eq_none_iff (p : Bytes) : fetch p = none ↔ decode p = .incomplete := by
  refine ⟨fun hnone => ?_, fetch_of_incomplete p⟩
  unfold decode
  split
  case h_1 opb b1 b2 b3 b4 data =>
    have hlt : data.length < lengthField b1 b2 b3 b4 := not_le.mp fun hle => by
      rw [fetch_cons rfl hle] at hnone
      cases hnone
    simp [hlt]
  case h_2 => rfl

end Sys2Proof

namespace Sys2Proof.Machine

/-- Settles O1: the length field is read back, and the opcode map undoes the op byte. -/
theorem decodeReadsBackEveryEncodedRequest : Obligations.DecodeReadsBackEveryEncodedRequest := by
  unfold Obligations.DecodeReadsBackEveryEncodedRequest
  exact fun _ hwf => decode_encode hwf

/-- Settles O2: a whole head is the op byte and `be32` of the length it announces. -/
theorem encodeRestoresTheDecodedBytes : Obligations.EncodeRestoresTheDecodedBytes := by
  unfold Obligations.EncodeRestoresTheDecodedBytes
  exact fun _ _ hdecode => encode_of_decode_eq_ok hdecode

/-- Settles O3: each clause fixes the comparison with the length field, and the op byte then fixes the map's branch. -/
theorem decoderSortsEveryByteSequence : Obligations.DecoderSortsEveryByteSequence := by
  unfold Obligations.DecoderSortsEveryByteSequence
  refine ⟨fun r hshort => ?_, fun opb b1 b2 b3 b4 data n hn => ?_⟩
  · unfold decode
    split
    case h_1 => simp at hshort; omega
    case h_2 => rfl
  obtain rfl : n = lengthField b1 b2 b3 b4 := hn
  refine ⟨fun hlt => by simp [decode, hlt], fun hgt => by simp [decode, hgt, hgt.not_gt], fun hlen => ?_⟩
  rw [decode_cons_of_length_eq hlen, ← hlen]
  refine ⟨?_, ?_, ?_, ?_, ?_⟩
  · rintro rfl
    rfl
  · rintro rfl
    rfl
  · rintro rfl hzero
    rw [List.length_eq_zero_iff.mp hzero]
    rfl
  · rintro rfl hpos
    rw [classify_of_isReserved ((isReserved_iff _ _).mpr
      ⟨by decide, by decide, fun _ => List.length_eq_zero_iff.not.mp hpos⟩)]
  · intro hencode hreceive hreset
    rw [classify_of_isReserved ((isReserved_iff _ _).mpr ⟨hencode, hreceive, fun h => absurd h hreset⟩)]

/-- Settles O4. -/
theorem sampleRequestWordsDecode : Obligations.SampleRequestWordsDecode := by
  unfold Obligations.SampleRequestWordsDecode
  decide

/-! ### What a step takes off the port -/

/-- A step with a whole well-formed request first at the port. -/
theorem step_of_port_eq_encode_append {i : Instr} {rest : Bytes} {s : State} (hwf : i.wellFormed = true)
    (hport : s.port = encode i ++ rest) : step s = exec i (s.setPort rest) :=
  step_of_fetch (hport ▸ fetch_encode_append hwf rest)

/-- Settles O5. -/
theorem stepRunsThePresentedRequest : Obligations.StepRunsThePresentedRequest := by
  unfold Obligations.StepRunsThePresentedRequest
  exact fun _ _ _ hwf hport => step_of_port_eq_encode_append hwf hport

/-- Settles O6. -/
theorem stepWaitsForAnIncompleteRequest : Obligations.StepWaitsForAnIncompleteRequest := by
  unfold Obligations.StepWaitsForAnIncompleteRequest
  intro s hinc
  simp [step, fetch_of_incomplete _ hinc]

/-- Settles O7: a table word that decodes is the encoding of its instruction, so it is split off the port whole. -/
theorem tableWordIsRunByTheNextStep : Obligations.TableWordIsRunByTheNextStep := by
  unfold Obligations.TableWordIsRunByTheNextStep
  intro nbits w i s hword
  have hdecode : decode (tableWordBytes nbits w) = .ok i := by
    unfold decodeTableWord at hword
    split at hword
    case h_1 j hj => rwa [Option.some.inj hword] at hj
    case h_2 => cases hword
    case h_3 => cases hword
  obtain ⟨hwf, hbytes⟩ := encode_of_decode_eq_ok hdecode
  have hport : (s.withFetchWord nbits w).port = encode i ++ s.port := by
    rw [State.withFetchWord, State.setPort_port, hbytes]
  rw [step_of_port_eq_encode_append hwf hport, State.withFetchWord, State.setPort_setPort, State.setPort_port_self]

end Sys2Proof.Machine
end

section
/-! PROOF. RECEIVE as one equation over the cutting of the buffered bytes (spec/41_stream_reassembler.md R85 to R96),
and what follows from it for one RECEIVE. -/

namespace Sys2Proof.Machine

/-- A request, a step or a run answers one next state. -/
theorem eq_of_eq_next {o : Host.Outcome State Fault Refusal} {t u : State} (h : o = .next t) (h' : o = .next u) :
    t = u :=
  Host.Outcome.next.inj (h.symm.trans h')

/-! ### First frames -/

section FirstFrames

variable {cfg : Config} {b noise f tail : Bytes}

theorem HoldsPair.of_infix {b' : Bytes} (h : HoldsPair cfg b) (hb : b <:+: b') : HoldsPair cfg b' := by
  obtain ⟨x, y, z, rfl⟩ := h
  obtain ⟨u, v, rfl⟩ := hb
  exact ⟨u ++ x, y, z ++ v, by simp⟩

/-- A pair needs the second byte of a start marker. -/
theorem HoldsPair.startMark_second_mem (h : HoldsPair cfg b) : cfg.startMark.second ∈ b := by
  obtain ⟨x, y, z, rfl⟩ := h
  simp [Marker.bytes]

theorem HoldsPair.exists_firstFrame (h : HoldsPair cfg b) : ∃ noise f tail, FirstFrame cfg b noise f tail := by
  cases hpair : firstPair cfg b with
  | none => exact absurd h ((firstPair_eq_none_iff cfg b).mp hpair)
  | some ij =>
    obtain ⟨noise, f, tail, hfirst, -⟩ := firstPair_split cfg b ij.1 ij.2 hpair
    exact ⟨noise, f, tail, hfirst⟩

theorem FirstFrame.holdsPair (h : FirstFrame cfg b noise f tail) : HoldsPair cfg b := ⟨noise, f, tail, h.1⟩

theorem FirstFrame.append (h : FirstFrame cfg b noise f tail) (rest : Bytes) :
    FirstFrame cfg (b ++ rest) noise f (tail ++ rest) :=
  ⟨by rw [h.1, List.append_assoc], h.2⟩

theorem FirstFrame.length_eq (h : FirstFrame cfg b noise f tail) :
    b.length = noise.length + 2 + f.length + 2 + tail.length := by
  rw [h.1]
  simp [Marker.bytes]
  omega

theorem FirstFrame.tail_suffix (h : FirstFrame cfg b noise f tail) : tail <:+ b := ⟨_, h.1.symm⟩

/-- The first markers are found by their places, and the places fix the cutting. -/
theorem FirstFrame.unique {noise' f' tail' : Bytes} (h : FirstFrame cfg b noise f tail)
    (h' : FirstFrame cfg b noise' f' tail') : noise = noise' ∧ f = f' ∧ tail = tail' := by
  have hplaces := (firstPair_of_split cfg h).symm.trans (firstPair_of_split cfg h')
  obtain ⟨hnoise, hframe⟩ : noise.length = noise'.length ∧ f.length = f'.length := by
    simp only [Option.some.injEq, Prod.mk.injEq] at hplaces
    omega
  have hf := slice_of_split cfg h
  have htail := drop_of_split cfg h
  rw [hnoise, hframe] at hf htail
  refine ⟨?_, hf.symm.trans (slice_of_split cfg h'), htail.symm.trans (drop_of_split cfg h')⟩
  have hwhole := h.1.symm.trans h'.1
  simp only [List.append_assoc] at hwhole
  exact (List.append_inj hwhole hnoise).1

/-- Of bytes that go on into a first frame, either the frame is whole in them, or they hold no pair and end before its
end marker does (R90, R131). -/
theorem FirstFrame.of_append {b₀ rest : Bytes} (h : FirstFrame cfg (b₀ ++ rest) noise f tail) :
    (∃ tail₀, FirstFrame cfg b₀ noise f tail₀ ∧ tail = tail₀ ++ rest) ∨
      (¬ HoldsPair cfg b₀ ∧ b₀.length ≤ frameSpan noise f) := by
  by_cases hpair : HoldsPair cfg b₀
  · obtain ⟨noise₀, f₀, tail₀, h₀⟩ := hpair.exists_firstFrame
    obtain ⟨rfl, rfl, rfl⟩ := h.unique (h₀.append rest)
    exact .inl ⟨tail₀, h₀, rfl⟩
  · refine .inr ⟨hpair, not_lt.mp fun hlong => hpair ?_⟩
    have hshort : (noise ++ cfg.startMark.bytes ++ f ++ cfg.endMark.bytes).length ≤ b₀.length := by
      unfold frameSpan at hlong
      simp [Marker.bytes]
      omega
    obtain ⟨z, hz⟩ := List.prefix_of_prefix_length_le ⟨tail, h.1.symm⟩ (List.prefix_append b₀ rest) hshort
    exact ⟨noise, f, z, hz.symm⟩

end FirstFrames

/-! ### Cuttings into frames and a residue -/

section Cuttings

variable {cfg : Config} {b residue : Bytes} {fs : List Bytes}

/-- There is a cutting: the extraction loop finds one. -/
theorem exists_segmented (cfg : Config) (b : Bytes) : ∃ fs residue, Segmented cfg b fs residue := by
  obtain ⟨fs, residue, -, hseg⟩ := extractAll_spec (b.length / 4) ((State.powerOn cfg).appendBuf b) [] le_rfl rfl
  exact ⟨fs, residue, hseg⟩

theorem segmented_nil (h : ¬ HoldsPair cfg b) : Segmented cfg b [] b := ⟨rfl, h⟩

/-- There is only one. -/
theorem Segmented.unique {fs' : List Bytes} {residue' : Bytes} (h : Segmented cfg b fs residue)
    (h' : Segmented cfg b fs' residue') : fs = fs' ∧ residue = residue' := by
  induction fs generalizing b fs' with
  | nil =>
    obtain ⟨rfl, hno⟩ := h
    cases fs' with
    | nil => exact ⟨rfl, h'.1⟩
    | cons f' fs' =>
      obtain ⟨noise', tail', hfirst', -⟩ := h'
      exact absurd hfirst'.holdsPair hno
  | cons f fs ih =>
    obtain ⟨noise, tail, hfirst, hseg⟩ := h
    cases fs' with
    | nil =>
      obtain ⟨rfl, hno'⟩ := h'
      exact absurd hfirst.holdsPair hno'
    | cons f' fs' =>
      obtain ⟨noise', tail', hfirst', hseg'⟩ := h'
      obtain ⟨-, rfl, rfl⟩ := hfirst.unique hfirst'
      obtain ⟨rfl, rfl⟩ := ih hseg hseg'
      exact ⟨rfl, rfl⟩

/-- More bytes after a cutting: the residue is cut on. -/
theorem Segmented.append {c residue' : Bytes} {fs' : List Bytes} (h : Segmented cfg b fs residue)
    (h' : Segmented cfg (residue ++ c) fs' residue') : Segmented cfg (b ++ c) (fs ++ fs') residue' := by
  induction fs generalizing b with
  | nil =>
    obtain ⟨rfl, -⟩ := h
    exact h'
  | cons f fs ih =>
    obtain ⟨noise, tail, hfirst, hseg⟩ := h
    exact ⟨noise, tail ++ c, hfirst.append c, ih hseg⟩

theorem Segmented.not_holdsPair (h : Segmented cfg b fs residue) : ¬ HoldsPair cfg residue := by
  induction fs generalizing b with
  | nil => exact h.2
  | cons f fs ih =>
    obtain ⟨_, _, -, hseg⟩ := h
    exact ih hseg

theorem Segmented.residue_suffix (h : Segmented cfg b fs residue) : residue <:+ b := by
  induction fs generalizing b with
  | nil => exact h.1 ▸ List.suffix_rfl
  | cons f fs ih =>
    obtain ⟨noise, tail, hfirst, hseg⟩ := h
    exact (ih hseg).trans hfirst.tail_suffix

/-- Each frame takes its bytes and two markers off what is left. -/
theorem Segmented.sum_length_le (h : Segmented cfg b fs residue) :
    (fs.map fun f => f.length + 4).sum + residue.length ≤ b.length := by
  induction fs generalizing b with
  | nil => simp [h.1]
  | cons f fs ih =>
    obtain ⟨noise, tail, hfirst, hseg⟩ := h
    have htail := ih hseg
    have hlen := hfirst.length_eq
    simp only [List.map_cons, List.sum_cons]
    omega

theorem Segmented.frame_between_markers (h : Segmented cfg b fs residue) {f : Bytes} (hf : f ∈ fs) :
    cfg.startMark.bytes ++ f ++ cfg.endMark.bytes <:+: b ∧ ¬ cfg.endMark.bytes <:+: f := by
  induction fs generalizing b with
  | nil => cases hf
  | cons g fs ih =>
    obtain ⟨noise, tail, hfirst, hseg⟩ := h
    rcases List.mem_cons.mp hf with rfl | hf
    · obtain ⟨hb, -, hend⟩ := hfirst
      exact ⟨⟨noise, tail, by simp [hb]⟩, fun hin => hend (hin.trans (List.prefix_append _ _).isInfix)⟩
    · obtain ⟨hbetween, hend⟩ := ih hseg hf
      exact ⟨hbetween.trans hfirst.tail_suffix.isInfix, hend⟩

/-- Of the configuration a cutting depends on the markers only. -/
theorem Segmented.of_marks_eq {cfg' : Config} (h : Segmented cfg b fs residue) (hs : cfg'.startMark = cfg.startMark)
    (he : cfg'.endMark = cfg.endMark) : Segmented cfg' b fs residue := by
  induction fs generalizing b with
  | nil => simpa only [Segmented, HoldsPair, hs, he] using h
  | cons f fs ih =>
    obtain ⟨noise, tail, hfirst, hseg⟩ := h
    exact ⟨noise, tail, by simpa only [FirstFrame, NoEarlierStart, NoEarlierEnd, hs, he] using hfirst, ih hseg⟩

end Cuttings

/-! ### RECEIVE -/

@[simp] theorem Resp.received_true (fs : List Bytes) : Resp.received fs true = ⟨.rxDropped, fs, true⟩ := rfl
@[simp] theorem Resp.received_false (fs : List Bytes) : Resp.received fs false = ⟨.ok, fs, false⟩ := rfl

/-- The state after a RECEIVE that cut buffer and chunk into the frames `fs` and a residue (R85, R95). -/
def State.received (s : State) (fs : List Bytes) (residue : Bytes) : State :=
  { s with
    buf := if overflows s.cfg residue then [] else residue
    rsState := .accumulating
    answers := s.answers ++ [.response (.received fs (overflows s.cfg residue))] }

section Receive

variable (s : State) (fs : List Bytes) (residue : Bytes)

@[simp] theorem State.received_cfg : (s.received fs residue).cfg = s.cfg := rfl
@[simp] theorem State.received_buf :
    (s.received fs residue).buf = if overflows s.cfg residue then [] else residue := rfl
@[simp] theorem State.received_rsState : (s.received fs residue).rsState = .accumulating := rfl
@[simp] theorem State.received_refused : (s.received fs residue).refused = s.refused := rfl
@[simp] theorem State.received_port : (s.received fs residue).port = s.port := rfl
@[simp] theorem State.received_txDraws : (s.received fs residue).txDraws = s.txDraws := rfl
@[simp] theorem State.received_txDrawn : (s.received fs residue).txDrawn = s.txDrawn := rfl
@[simp] theorem State.received_calls : (s.received fs residue).calls = s.calls := rfl
@[simp] theorem State.received_answers : (s.received fs residue).answers
    = s.answers ++ [.response (.received fs (overflows s.cfg residue))] := rfl

variable {s fs residue}

theorem overflows_of_lt {cfg : Config} (h : cfg.ceiling < residue.length) : overflows cfg residue = true :=
  decide_eq_true h

theorem overflows_of_le {cfg : Config} (h : residue.length ≤ cfg.ceiling) : overflows cfg residue = false :=
  decide_eq_false h.not_gt

theorem exec_receive_of_tooLong {chunk : Bytes} (h : chunkTooLong s.cfg chunk = true) :
    exec (.receive chunk) s = .next (s.markRefused.logAnswer (.refused .chunkTooLong)) := by
  simp [exec, execReceive, h, State.refuse_eq]

/-- The end of a RECEIVE on what the loop left: the drop shows in the buffer and in the response alike (R95, R117). -/
theorem respond_dropOverflow (s : State) (fs : List Bytes) :
    (dropOverflow s).2.respond (.received fs (dropOverflow s).1) = .next
      { s with
        buf := if overflows s.cfg s.buf then [] else s.buf
        answers := s.answers ++ [.response (.received fs (overflows s.cfg s.buf))] } := by
  unfold dropOverflow
  cases overflows s.cfg s.buf <;> rfl

/-- However buffer and chunk are cut, that cutting is the one RECEIVE makes. -/
theorem exec_receive_of_segmented {chunk : Bytes} (hadm : chunkTooLong s.cfg chunk = false)
    (hseg : Segmented s.cfg (s.buf ++ chunk) fs residue) :
    exec (.receive chunk) s = .next (s.received fs residue) := by
  obtain ⟨fs', residue', hloop, hseg'⟩ := extractAll_spec _ ((s.setRsState .accumulating).appendBuf chunk) [] le_rfl rfl
  obtain ⟨rfl, rfl⟩ := hseg.unique hseg'
  simp only [exec, execReceive, hadm, Bool.false_eq_true, if_false, hloop]
  exact respond_dropOverflow _ fs

/-- What a RECEIVE can do: be refused, or emit the frames of the cutting and keep or drop its residue. -/
theorem exec_receive_cases (chunk : Bytes) (s : State) :
    (chunkTooLong s.cfg chunk = true ∧
      exec (.receive chunk) s = .next (s.markRefused.logAnswer (.refused .chunkTooLong))) ∨
    (chunkTooLong s.cfg chunk = false ∧ ∃ fs residue, Segmented s.cfg (s.buf ++ chunk) fs residue ∧
      exec (.receive chunk) s = .next (s.received fs residue)) := by
  cases hlong : chunkTooLong s.cfg chunk with
  | true => exact .inl ⟨rfl, exec_receive_of_tooLong hlong⟩
  | false =>
    obtain ⟨fs, residue, hseg⟩ := exists_segmented s.cfg (s.buf ++ chunk)
    exact .inr ⟨rfl, fs, residue, hseg, exec_receive_of_segmented hlong hseg⟩

/-- The same, read off a RECEIVE that has answered. -/
theorem eq_of_exec_receive {chunk : Bytes} {t : State} (h : exec (.receive chunk) s = .next t) :
    t = s.markRefused.logAnswer (.refused .chunkTooLong) ∨
    ∃ fs residue, Segmented s.cfg (s.buf ++ chunk) fs residue ∧ t = s.received fs residue := by
  rcases exec_receive_cases chunk s with ⟨-, hrefused⟩ | ⟨-, fs, residue, hseg, hreceived⟩
  · exact .inl (eq_of_eq_next h hrefused)
  · exact .inr ⟨fs, residue, hseg, eq_of_eq_next h hreceived⟩

end Receive

/-! ### The records between two states -/

theorem newAnswers_of_answers_eq {s t : State} {new : List Answer} (h : t.answers = s.answers ++ new) :
    newAnswers s t = new := by
  rw [newAnswers, h, List.drop_left]

theorem newFrames_of_answers_eq {s t : State} {new : List Answer} (h : t.answers = s.answers ++ new) :
    newFrames s t = new.flatMap Answer.frames := by
  rw [newFrames, newAnswers_of_answers_eq h]

@[simp] theorem newAnswers_received (s : State) (fs : List Bytes) (residue : Bytes) :
    newAnswers s (s.received fs residue) = [.response (.received fs (overflows s.cfg residue))] :=
  newAnswers_of_answers_eq rfl

@[simp] theorem newFrames_received (s : State) (fs : List Bytes) (residue : Bytes) :
    newFrames s (s.received fs residue) = fs := by
  simp [newFrames, Answer.frames, Resp.received]

@[simp] theorem newAnswers_refused (s : State) (why : RefuseReason) :
    newAnswers s (s.markRefused.logAnswer (.refused why)) = [.refused why] :=
  newAnswers_of_answers_eq rfl

@[simp] theorem newFrames_refused (s : State) (why : RefuseReason) :
    newFrames s (s.markRefused.logAnswer (.refused why)) = [] := by
  simp [newFrames, Answer.frames]

/-! ### One RECEIVE -/

theorem chunkTooLong_eq_true_iff (cfg : Config) (chunk : Bytes) :
    chunkTooLong cfg chunk = true ↔ ∃ m, cfg.maxChunk = some m ∧ m < chunk.length := by
  unfold chunkTooLong
  cases cfg.maxChunk <;> simp

/-- Settles O32: there is a cutting, and RECEIVE makes it. -/
theorem receiveExtractsEveryFrameThenDrops : Obligations.ReceiveExtractsEveryFrameThenDrops := by
  unfold Obligations.ReceiveExtractsEveryFrameThenDrops
  intro chunk s
  refine ⟨fun hlong => exec_receive_of_tooLong ((chunkTooLong_eq_true_iff _ _).mpr hlong), fun hadm => ?_⟩
  obtain ⟨fs, residue, hseg⟩ := exists_segmented s.cfg (s.buf ++ chunk)
  refine ⟨_, fs, residue, exec_receive_of_segmented ((chunkTooLong_eq_false_iff _ _).mpr hadm) hseg, hseg, rfl, ?_⟩
  rcases Nat.lt_or_ge s.cfg.ceiling residue.length with hover | hfits
  · exact .inr ⟨hover, by simp [overflows_of_lt hover], by simp [overflows_of_lt hover]⟩
  · exact .inl ⟨hfits, by simp [overflows_of_le hfits], by simp [overflows_of_le hfits]⟩

/-- Settles O33: there is only one cutting. -/
theorem receiveEmitsTheFramesOfAnySegmentation : Obligations.ReceiveEmitsTheFramesOfAnySegmentation := by
  unfold Obligations.ReceiveEmitsTheFramesOfAnySegmentation
  intro chunk s fs residue hadm hseg hfits
  refine ⟨_, exec_receive_of_segmented ((chunkTooLong_eq_false_iff _ _).mpr hadm) hseg, ?_, ?_⟩
  · simp [overflows_of_le hfits]
  · simp [overflows_of_le hfits]

/-- Settles O34. -/
theorem receiveWritesBufferAndStateOnly : Obligations.ReceiveWritesBufferAndStateOnly := by
  unfold Obligations.ReceiveWritesBufferAndStateOnly
  intro chunk s t hexec
  rcases eq_of_exec_receive hexec with rfl | ⟨fs, residue, -, rfl⟩
  · exact ⟨rfl, rfl, rfl, rfl, rfl, .inr ⟨rfl, rfl, rfl, rfl⟩⟩
  · refine ⟨rfl, rfl, rfl, rfl, rfl, .inl ?_⟩
    cases hover : overflows s.cfg residue with
    | true => exact ⟨rfl, fs, .inr (by simp [hover])⟩
    | false => exact ⟨rfl, fs, .inl (by simp [hover])⟩

/-- Settles O41. -/
theorem emittedFramesStandBetweenMarkers : Obligations.EmittedFramesStandBetweenMarkers := by
  unfold Obligations.EmittedFramesStandBetweenMarkers
  intro chunk s t hexec f hf
  rcases eq_of_exec_receive hexec with rfl | ⟨fs, residue, hseg, rfl⟩
  · simp at hf
  · exact hseg.frame_between_markers (by simpa using hf)

/-- Settles O42. -/
theorem eachFrameCostsItsBytesAndFourMore : Obligations.EachFrameCostsItsBytesAndFourMore := by
  unfold Obligations.EachFrameCostsItsBytesAndFourMore
  intro chunk s t hexec
  rcases eq_of_exec_receive hexec with rfl | ⟨fs, residue, hseg, rfl⟩
  · simp
  · have hsum := hseg.sum_length_le
    have hbuf : (s.received fs residue).buf.length ≤ residue.length := by
      rw [State.received_buf]
      split <;> simp
    rw [List.length_append] at hsum
    rw [newFrames_received]
    omega

/-- Settles O43. -/
theorem requiredCapacityHoldsTheAppendedChunk : Obligations.RequiredCapacityHoldsTheAppendedChunk := by
  unfold Obligations.RequiredCapacityHoldsTheAppendedChunk
  intro s chunk cap hbuf hcap hadm
  cases hmax : s.cfg.maxChunk with
  | none => simp [capacitySuffices, hmax] at hcap
  | some m =>
    have hroom : s.cfg.ceiling + m ≤ cap := by simpa [capacitySuffices, hmax] using hcap
    have hchunk := (chunkTooLong_eq_false_iff _ _).mp hadm m hmax
    rw [State.appendBuf_buf, List.length_append]
    omega

/-- Settles O44, by running the example. -/
theorem noiseExampleGivesOneFrame : Obligations.NoiseExampleGivesOneFrame := by
  unfold Obligations.NoiseExampleGivesOneFrame
  exact ⟨_, rfl, by decide, by decide⟩

end Sys2Proof.Machine
end

section
/-! PROOF. ENCODE as one equation (spec/40_frame_encoder.md R70 to R78), and the control operations
(spec/42_control.md R106, R108). -/

namespace Sys2Proof.Machine

/-! ### ENCODE -/

/-- The status of an ENCODE under the draws `d` (R70, R116). -/
def encodeStatus (cfg : Config) (cmd : Bytes) (d : TxDraw) : Status :=
  if cmd.length = 0 then .notSentEmpty
  else if 65521 < cmd.length then .notSentTooLong
  else if d.connected = false then .notSentDisconnected
  else writeStatus (d.acceptedOf (frame (payload cfg cmd))) (frame (payload cfg cmd)).length

/-- The calls an ENCODE makes to Transport under the draws `d` (R70, R76). -/
def encodeCalls (cfg : Config) (cmd : Bytes) (d : TxDraw) : List TransportCall :=
  if cmd.length = 0 ∨ 65521 < cmd.length then []
  else if d.connected = false then [.isConnected false]
  else [.isConnected true, .write (frame (payload cfg cmd)) (d.acceptedOf (frame (payload cfg cmd)))]

/-- The state after an ENCODE (R78). -/
def State.encoded (s : State) (cmd : Bytes) : State :=
  { s with
    txDraws := s.txDraws.tail
    txDrawn := s.txDrawn + 1
    calls := s.calls ++ encodeCalls s.cfg cmd s.txDraw
    answers := s.answers ++ [.response (.plain (encodeStatus s.cfg cmd s.txDraw))] }

section Encode

variable (s : State) (cmd : Bytes)

@[simp] theorem State.encoded_cfg : (s.encoded cmd).cfg = s.cfg := rfl
@[simp] theorem State.encoded_buf : (s.encoded cmd).buf = s.buf := rfl
@[simp] theorem State.encoded_rsState : (s.encoded cmd).rsState = s.rsState := rfl
@[simp] theorem State.encoded_refused : (s.encoded cmd).refused = s.refused := rfl
@[simp] theorem State.encoded_port : (s.encoded cmd).port = s.port := rfl
@[simp] theorem State.encoded_txDraws : (s.encoded cmd).txDraws = s.txDraws.tail := rfl
@[simp] theorem State.encoded_txDrawn : (s.encoded cmd).txDrawn = s.txDrawn + 1 := rfl
@[simp] theorem State.encoded_calls :
    (s.encoded cmd).calls = s.calls ++ encodeCalls s.cfg cmd s.txDraw := rfl
@[simp] theorem State.encoded_answers :
    (s.encoded cmd).answers = s.answers ++ [.response (.plain (encodeStatus s.cfg cmd s.txDraw))] := rfl

variable {s cmd} {cfg : Config} {d : TxDraw}

theorem encodeCalls_of_not_sent (h : cmd.length = 0 ∨ 65521 < cmd.length) : encodeCalls cfg cmd d = [] := if_pos h

theorem encodeCalls_of_disconnected (hpos : 0 < cmd.length) (hle : cmd.length ≤ 65521) (hconn : d.connected = false) :
    encodeCalls cfg cmd d = [.isConnected false] := by
  rw [encodeCalls, if_neg (by omega), if_pos hconn]

theorem encodeCalls_of_connected (hpos : 0 < cmd.length) (hle : cmd.length ≤ 65521) (hconn : d.connected = true) :
    encodeCalls cfg cmd d = [.isConnected true, .write (frame (payload cfg cmd))
      (d.acceptedOf (frame (payload cfg cmd)))] := by
  rw [encodeCalls, if_neg (by omega), if_neg (by simp [hconn])]

/-- The four exits of R70 in one equation. -/
theorem exec_encode (cmd : Bytes) (s : State) : exec (.encode cmd) s = .next (s.encoded cmd) := by
  rcases Nat.eq_zero_or_pos cmd.length with hzero | hpos
  · rw [exec_encode_of_empty hzero, State.encoded, encodeStatus, encodeCalls_of_not_sent (.inl hzero), if_pos hzero,
      List.append_nil]
    rfl
  rcases Nat.lt_or_ge 65521 cmd.length with hlong | hle
  · rw [exec_encode_of_tooLong hlong, State.encoded, encodeStatus, encodeCalls_of_not_sent (.inr hlong),
      if_neg hpos.ne', if_pos hlong, List.append_nil]
    rfl
  cases hconn : s.txDraw.connected with
  | false =>
    rw [exec_encode_of_disconnected hpos hle hconn, State.encoded, encodeStatus,
      encodeCalls_of_disconnected hpos hle hconn, if_neg hpos.ne', if_neg hle.not_gt, if_pos hconn, State.txConnected,
      hconn]
    rfl
  | true =>
    rw [exec_encode_of_connected hpos hle hconn, State.encoded, encodeStatus,
      encodeCalls_of_connected hpos hle hconn, if_neg hpos.ne', if_neg hle.not_gt, if_neg (by simp [hconn]),
      State.txConnected, hconn]
    simp [State.respond, State.txWrite, State.logCall, State.logAnswer, State.nextDraw]

/-- Nothing, the sample, or the sample and one hand-off. -/
theorem encodeCalls_cases (cfg : Config) (cmd : Bytes) (d : TxDraw) : encodeCalls cfg cmd d = [] ∨
    encodeCalls cfg cmd d = [.isConnected false] ∨
    (cmd.length ≤ 65521 ∧ encodeCalls cfg cmd d = [.isConnected true, .write (frame (payload cfg cmd))
      (d.acceptedOf (frame (payload cfg cmd)))]) := by
  by_cases hsent : cmd.length = 0 ∨ 65521 < cmd.length
  · exact .inl (encodeCalls_of_not_sent hsent)
  cases hconn : d.connected with
  | false => exact .inr (.inl (encodeCalls_of_disconnected (by omega) (by omega) hconn))
  | true => exact .inr (.inr ⟨by omega, encodeCalls_of_connected (by omega) (by omega) hconn⟩)

end Encode

/-- Settles O21. -/
theorem encodeLeavesTheStateUnchanged : Obligations.EncodeLeavesTheStateUnchanged := by
  unfold Obligations.EncodeLeavesTheStateUnchanged
  intro cmd s t hexec
  obtain rfl := eq_of_eq_next (exec_encode cmd s) hexec
  refine ⟨rfl, rfl, rfl, rfl, rfl, rfl, rfl, ⟨_, rfl⟩, ?_⟩
  rcases encodeCalls_cases s.cfg cmd s.txDraw with hnone | hsample | ⟨-, hwrite⟩
  · exact .inl (by simp [hnone])
  · exact .inr (.inl ⟨false, by simp [hsample]⟩)
  · exact .inr (.inr ⟨_, by rw [State.encoded_calls, hwrite]⟩)

/-! ### Control -/

theorem exec_reset (s : State) :
    exec .reset s = .next ((s.clearBuf.setRsState .accumulating).logAnswer (.response (.plain .ok))) := rfl

theorem exec_reserved (opb : Byte) (data : Bytes) (s : State) :
    exec (.reserved opb data) s = .next (s.markRefused.logAnswer (.refused .illegalRequest)) := rfl

/-- Settles O45. -/
theorem resetClearsTheReassemblerOnly : Obligations.ResetClearsTheReassemblerOnly := by
  unfold Obligations.ResetClearsTheReassemblerOnly
  exact exec_reset

/-- Settles O47. -/
theorem illegalRequestOnlySetsTheMark : Obligations.IllegalRequestOnlySetsTheMark := by
  unfold Obligations.IllegalRequestOnlySetsTheMark
  exact exec_reserved

end Sys2Proof.Machine
end

section
/-! PROOF. What every request and every step does, and runs of steps (spec/10_state.md R19, R22, R29,
spec/60_exceptions.md R114, R115). -/

namespace Sys2Proof.Machine

/-! ### Every request -/

/-- The request was refused (R115). -/
def Answer.isRefusal : Answer → Bool
  | .response _ => false
  | .refused _ => true

/-- What every request has in common: it answers `a` and no more, sets the mark exactly with a refusal, and leaves
configuration and port (R19, R22, R29, R115). -/
structure State.AnsweredBy (s : State) (a : Answer) (t : State) : Prop where
  cfg : t.cfg = s.cfg
  port : t.port = s.port
  answers : t.answers = s.answers ++ [a]
  mark : t.refused = (s.refused || a.isRefusal)

theorem State.answeredBy_refused (s : State) (why : RefuseReason) :
    s.AnsweredBy (.refused why) (s.markRefused.logAnswer (.refused why)) :=
  ⟨rfl, rfl, rfl, by simp [Answer.isRefusal]⟩

theorem State.answeredBy_encoded (s : State) (cmd : Bytes) :
    s.AnsweredBy (.response (.plain (encodeStatus s.cfg cmd s.txDraw))) (s.encoded cmd) :=
  ⟨rfl, rfl, rfl, by simp [Answer.isRefusal]⟩

theorem State.answeredBy_received (s : State) (fs : List Bytes) (residue : Bytes) :
    s.AnsweredBy (.response (.received fs (overflows s.cfg residue))) (s.received fs residue) :=
  ⟨rfl, rfl, rfl, by simp [Answer.isRefusal]⟩

theorem exec_answeredBy (i : Instr) (s : State) : ∃ t a, exec i s = .next t ∧ s.AnsweredBy a t := by
  cases i with
  | encode cmd => exact ⟨_, _, exec_encode cmd s, s.answeredBy_encoded cmd⟩
  | receive chunk =>
    rcases exec_receive_cases chunk s with ⟨-, hrefused⟩ | ⟨-, fs, residue, -, hreceived⟩
    · exact ⟨_, _, hrefused, s.answeredBy_refused _⟩
    · exact ⟨_, _, hreceived, s.answeredBy_received fs residue⟩
  | reset => exact ⟨_, _, exec_reset s, rfl, rfl, rfl, by simp [Answer.isRefusal]⟩
  | reserved opb data => exact ⟨_, _, exec_reserved opb data s, s.answeredBy_refused _⟩

/-- The same, read off a request that has answered. -/
theorem answeredBy_of_exec {i : Instr} {s t : State} (h : exec i s = .next t) : ∃ a, s.AnsweredBy a t := by
  obtain ⟨t', a, hexec, hans⟩ := exec_answeredBy i s
  obtain rfl := eq_of_eq_next hexec h
  exact ⟨a, hans⟩

/-- What a step that has answered did: it waited, or it ran the request at the port. -/
theorem eq_or_answeredBy_of_step {s t : State} (h : step s = .next t) :
    t = s ∨ ∃ rest a, (s.setPort rest).AnsweredBy a t := by
  rcases step_cases s with ⟨-, hwait⟩ | ⟨i, rest, -, hrun⟩
  · exact .inl (eq_of_eq_next h hwait)
  · obtain ⟨a, hans⟩ := answeredBy_of_exec (hrun.symm.trans h)
    exact .inr ⟨rest, a, hans⟩

/-- Settles O11: the frames and the drop of a response come from RECEIVE alone. -/
theorem everyRequestIsAnsweredOnce : Obligations.EveryRequestIsAnsweredOnce := by
  unfold Obligations.EveryRequestIsAnsweredOnce
  intro i s
  cases i with
  | encode cmd =>
    refine ⟨_, _, exec_encode cmd s, rfl, .inr ⟨_, rfl, ?_, fun _ => ⟨rfl, rfl⟩⟩⟩
    simp only [Resp.plain, encodeStatus, writeStatus]
    split_ifs <;> simp
  | receive chunk =>
    rcases exec_receive_cases chunk s with ⟨-, hrefused⟩ | ⟨-, fs, residue, -, hreceived⟩
    · exact ⟨_, _, hrefused, rfl, .inl ⟨_, rfl, rfl⟩⟩
    · refine ⟨_, _, hreceived, rfl, .inr ⟨_, rfl, ?_, fun hno => absurd rfl (hno chunk)⟩⟩
      cases overflows s.cfg residue <;> simp
  | reset => exact ⟨_, _, exec_reset s, rfl, .inr ⟨_, rfl, by simp [Resp.plain], fun _ => ⟨rfl, rfl⟩⟩⟩
  | reserved opb data => exact ⟨_, _, exec_reserved opb data s, rfl, .inl ⟨_, rfl, rfl⟩⟩

/-- Settles O9. -/
theorem noStatusIsFatal : Obligations.NoStatusIsFatal := by
  unfold Obligations.NoStatusIsFatal
  intro i s t r hexec hnew
  obtain ⟨a, hans⟩ := answeredBy_of_exec hexec
  obtain rfl : a = .response r := by simpa [newAnswers_of_answers_eq hans.answers] using hnew
  refine ⟨by simpa [Answer.isRefusal] using hans.mark, fun j rest hwf hport => ?_⟩
  have hstep := step_of_port_eq_encode_append hwf hport
  obtain ⟨u, b, hnext, hansu⟩ := exec_answeredBy j (t.setPort rest)
  exact ⟨hstep, u, b, hstep.trans hnext, hansu.port, hansu.answers⟩

/-- Settles O10. -/
theorem everyStepAnswersANextState : Obligations.EveryStepAnswersANextState := by
  unfold Obligations.EveryStepAnswersANextState
  intro s
  rcases step_cases s with ⟨hnone, hwait⟩ | ⟨i, rest, hsome, hrun⟩
  · exact ⟨s, hwait, .inl ⟨(fetch_eq_none_iff _).mp hnone, rfl⟩⟩
  · obtain ⟨t, a, hnext, hans⟩ := exec_answeredBy i (s.setPort rest)
    refine ⟨t, hrun.trans hnext, .inr ⟨fun hinc => ?_, a, hans.answers⟩⟩
    rw [(fetch_eq_none_iff _).mpr hinc] at hsome
    cases hsome

/-- Settles O14: a step's one answer is a refusal exactly where it sets the mark. -/
theorem refusalMarkIsSticky : Obligations.RefusalMarkIsSticky := by
  unfold Obligations.RefusalMarkIsSticky
  intro s t hstep
  rcases eq_or_answeredBy_of_step hstep with rfl | ⟨rest, a, hans⟩
  · simp [newAnswers_of_answers_eq (s := t) (t := t) (new := []) (by simp)]
  · rw [newAnswers_of_answers_eq (s := s) hans.answers, hans.mark]
    cases a <;> simp [Answer.isRefusal]

/-! ### Runs -/

/-- What holds of no step at all, and is carried over one more step at the front, holds of every run. -/
theorem stepN_induction {P : State → State → Prop} (hrefl : ∀ s, P s s)
    (hstep : ∀ s u t, step s = .next u → P u t → P s t) {k : Nat} {s t : State} (h : stepN k s = .next t) : P s t := by
  induction k generalizing s with
  | zero => exact Host.Outcome.next.inj h ▸ hrefl s
  | succ k ih =>
    unfold stepN at h
    split at h
    case h_1 u hu => exact hstep s u t hu (ih h)
    case h_2 => cases h
    case h_3 => cases h

/-- Settles O16. -/
theorem configurationIsNeverWritten : Obligations.ConfigurationIsNeverWritten := by
  unfold Obligations.ConfigurationIsNeverWritten
  intro k s t hrun
  refine stepN_induction (P := fun s t => t.cfg = s.cfg) (fun _ => rfl) (fun s u t hstep hcfg => hcfg.trans ?_) hrun
  rcases eq_or_answeredBy_of_step hstep with rfl | ⟨rest, a, hans⟩
  · rfl
  · exact hans.cfg

/-- From `s` to `t` no request was refused: what O15 concludes from a clear mark. -/
def RefusedNothing (s t : State) : Prop :=
  s.Claimable ∧ ∃ new, t.answers = s.answers ++ new ∧ ∀ a ∈ new, ∃ r, a = .response r

/-- Settles O15, from the end of the run backwards: a clear mark was clear before the step, and the step's answer is no
refusal. -/
theorem claimableRunRefusedNothing : Obligations.ClaimableRunRefusedNothing := by
  unfold Obligations.ClaimableRunRefusedNothing
  intro k s t hrun
  refine stepN_induction (P := fun s t => t.Claimable → RefusedNothing s t)
    (fun s hclear => ⟨hclear, [], by simp⟩) (fun s u t hstep hrest hclear => ?_) hrun
  obtain ⟨hu, new, hnew, hresp⟩ := hrest hclear
  rcases eq_or_answeredBy_of_step hstep with rfl | ⟨rest, a, hans⟩
  · exact ⟨hu, new, hnew, hresp⟩
  · obtain ⟨hs, ha⟩ : s.refused = false ∧ a.isRefusal = false := by
      have hmark := hans.mark
      rw [show u.refused = false from hu] at hmark
      simpa using hmark.symm
    refine ⟨hs, a :: new, by rw [hnew, hans.answers]; simp, List.forall_mem_cons.mpr ⟨?_, hresp⟩⟩
    cases a with
    | response r => exact ⟨r, rfl⟩
    | refused why => cases ha

end Sys2Proof.Machine
end

section
/-! PROOF. What a request does not read (spec/00_scope.md R18, spec/20_memory.md R45, R49). -/

namespace Sys2Proof.Machine

/-! ### Agreement in what is read -/

/-- The two states agree on all that a RECEIVE reads: the buffer, the bounds and the markers (R85 to R88). -/
structure State.ReceivesAs (s s' : State) : Prop where
  buf : s'.buf = s.buf
  ceiling : s'.cfg.ceiling = s.cfg.ceiling
  maxChunk : s'.cfg.maxChunk = s.cfg.maxChunk
  startMark : s'.cfg.startMark = s.cfg.startMark
  endMark : s'.cfg.endMark = s.cfg.endMark

/-- States that agree so are refused alike, or emit, keep and drop the same. -/
theorem State.ReceivesAs.exec_cases {s s' : State} (h : s.ReceivesAs s') (chunk : Bytes) :
    (exec (.receive chunk) s = .next (s.markRefused.logAnswer (.refused .chunkTooLong)) ∧
      exec (.receive chunk) s' = .next (s'.markRefused.logAnswer (.refused .chunkTooLong))) ∨
    ∃ fs residue, exec (.receive chunk) s = .next (s.received fs residue) ∧
      exec (.receive chunk) s' = .next (s'.received fs residue) ∧
      overflows s'.cfg residue = overflows s.cfg residue := by
  have hlong : chunkTooLong s'.cfg chunk = chunkTooLong s.cfg chunk := by simp only [chunkTooLong, h.maxChunk]
  rcases exec_receive_cases chunk s with ⟨htoo, hrefused⟩ | ⟨hadm, fs, residue, hseg, hreceived⟩
  · exact .inl ⟨hrefused, exec_receive_of_tooLong (hlong.trans htoo)⟩
  · have hseg' : Segmented s'.cfg (s'.buf ++ chunk) fs residue := by
      rw [h.buf]
      exact hseg.of_marks_eq h.startMark h.endMark
    exact .inr ⟨fs, residue, hreceived, exec_receive_of_segmented (hlong.trans hadm) hseg', by
      simp only [overflows, h.ceiling]⟩

/-- No request reads the port. -/
theorem exec_setPort (i : Instr) (s : State) (p : Bytes) :
    ∃ t, exec i s = .next t ∧ exec i (s.setPort p) = .next (t.setPort p) := by
  cases i with
  | encode cmd => exact ⟨_, exec_encode cmd s, exec_encode cmd (s.setPort p)⟩
  | receive chunk =>
    have halike : s.ReceivesAs (s.setPort p) := ⟨rfl, rfl, rfl, rfl, rfl⟩
    rcases halike.exec_cases chunk with ⟨hs, hp⟩ | ⟨fs, residue, hs, hp, -⟩
    · exact ⟨_, hs, hp⟩
    · exact ⟨_, hs, hp⟩
  | reset => exact ⟨_, rfl, rfl⟩
  | reserved opb data => exact ⟨_, rfl, rfl⟩

/-- Settles O8, by induction on the requests: what stands behind a request at the port does not change its meaning. -/
theorem presentedRequestsRunInOrder : Obligations.PresentedRequestsRunInOrder := by
  unfold Obligations.PresentedRequestsRunInOrder
  intro is rest s hwf hport
  change stepN is.length s = execAll is (s.setPort rest)
  induction is generalizing s with
  | nil =>
    obtain rfl : s.port = rest := hport
    rfl
  | cons i is ih =>
    obtain ⟨hi, his⟩ := List.forall_mem_cons.mp hwf
    have hfirst := step_of_port_eq_encode_append hi (s := s) (rest := is.flatMap encode ++ rest) (by simp [hport])
    obtain ⟨t, hmore, hlast⟩ := exec_setPort i (s.setPort (is.flatMap encode ++ rest)) rest
    rw [State.setPort_setPort] at hlast
    obtain ⟨a, hans⟩ := answeredBy_of_exec hmore
    simp only [List.length_cons, stepN, execAll, hfirst, hmore, hlast]
    exact ih t his hans.port

/-- Settles O18: the draws are not among what a RECEIVE reads. -/
theorem onlyEncodeTouchesTransport : Obligations.OnlyEncodeTouchesTransport := by
  unfold Obligations.OnlyEncodeTouchesTransport
  intro i s ds n hother
  cases i with
  | encode cmd => exact absurd rfl (hother cmd)
  | receive chunk =>
    have halike : s.ReceivesAs { s with txDraws := ds, txDrawn := n } := ⟨rfl, rfl, rfl, rfl, rfl⟩
    rcases halike.exec_cases chunk with ⟨hs, hd⟩ | ⟨fs, residue, hs, hd, -⟩
    · exact ⟨_, hs, rfl, rfl, rfl, hd⟩
    · exact ⟨_, hs, rfl, rfl, rfl, hd⟩
  | reset => exact ⟨_, rfl, rfl, rfl, rfl, rfl⟩
  | reserved opb data => exact ⟨_, rfl, rfl, rfl, rfl, rfl⟩

/-- Settles O30. The equation of ENCODE holds of both states; what RECEIVE reads is the same in both. -/
theorem encoderAndReassemblerShareNoState : Obligations.EncoderAndReassemblerShareNoState := by
  unfold Obligations.EncoderAndReassemblerShareNoState
  refine ⟨fun cmd s b r => ⟨_, exec_encode cmd s, rfl, rfl, exec_encode cmd _⟩, ?_⟩
  intro chunk s cfg ds n cs hceiling hmax hstart hend
  have halike : s.ReceivesAs { s with cfg := cfg, txDraws := ds, txDrawn := n, calls := cs } :=
    ⟨rfl, hceiling, hmax, hstart, hend⟩
  rcases halike.exec_cases chunk with ⟨hs, ho⟩ | ⟨fs, residue, hs, ho, hover⟩
  · exact ⟨_, hs, rfl, rfl, rfl, rfl, ho⟩
  · refine ⟨_, hs, rfl, rfl, rfl, rfl, ho.trans ?_⟩
    simp only [State.received, hover]

/-! ### The two streams -/

theorem execAll_cons_of_next {i : Instr} {is : List Instr} {s t : State} (h : exec i s = .next t) :
    execAll (i :: is) s = execAll is t := by
  rw [execAll, h]

/-- Two requests that both complete, one after the other. -/
theorem execAll_pair {i j : Instr} {s t u : State} (hi : exec i s = .next t) (hj : exec j t = .next u) :
    execAll [i, j] s = .next u := by
  rw [execAll_cons_of_next hi, execAll_cons_of_next hj, execAll]

/-- Settles O31: the ENCODE leaves all that the RECEIVE reads, and the RECEIVE all that the ENCODE reads. -/
theorem encodeAndReceiveCommute : Obligations.EncodeAndReceiveCommute := by
  unfold Obligations.EncodeAndReceiveCommute
  intro cmd chunk s
  have halike : s.ReceivesAs (s.encoded cmd) := ⟨rfl, rfl, rfl, rfl, rfl⟩
  rcases halike.exec_cases chunk with ⟨hs, he⟩ | ⟨fs, residue, hs, he, -⟩
  · refine ⟨_, _, execAll_pair (exec_encode cmd s) he, execAll_pair hs (exec_encode cmd _), rfl, rfl, rfl, rfl, rfl,
      ?_, rfl, _, _, newAnswers_of_answers_eq (List.append_assoc ..), newAnswers_of_answers_eq (List.append_assoc ..)⟩
    simp [State.framesOut, Answer.frames, Resp.plain]
  · refine ⟨_, _, execAll_pair (exec_encode cmd s) he, execAll_pair hs (exec_encode cmd _), rfl, rfl, rfl, rfl, rfl,
      ?_, rfl, _, _, newAnswers_of_answers_eq (List.append_assoc ..), newAnswers_of_answers_eq (List.append_assoc ..)⟩
    simp [State.framesOut, Answer.frames, Resp.plain]

end Sys2Proof.Machine
end

section
/-! PROOF. The buffer, the boundary invariants (spec/10_state.md R36, R37), and the codes
(spec/60_exceptions.md R111). -/

namespace Sys2Proof.Machine

/-! ### The buffer -/

/-- Settles O17: the residue of a RECEIVE is what is left of buffer and chunk. -/
theorem bufferChangesOnlyByItsPrimitives : Obligations.BufferChangesOnlyByItsPrimitives := by
  unfold Obligations.BufferChangesOnlyByItsPrimitives
  intro i s t hexec
  cases i with
  | encode cmd =>
    obtain rfl := eq_of_eq_next (exec_encode cmd s) hexec
    exact .inl rfl
  | receive chunk =>
    rcases eq_of_exec_receive hexec with rfl | ⟨fs, residue, hseg, rfl⟩
    · exact .inl rfl
    · refine .inr (.inr ⟨chunk, rfl, ?_⟩)
      cases hover : overflows s.cfg residue with
      | true => exact .inl (by simp [hover])
      | false =>
        refine .inr ⟨(s.buf ++ chunk).length - residue.length, Nat.sub_le .., ?_⟩
        simpa [hover] using List.suffix_iff_eq_drop.mp hseg.residue_suffix
  | reset =>
    obtain rfl := eq_of_eq_next (exec_reset s) hexec
    exact .inr (.inl ⟨rfl, rfl⟩)
  | reserved opb data =>
    obtain rfl := eq_of_eq_next (exec_reserved opb data s) hexec
    exact .inl rfl

/-- The invariants speak of configuration, buffer and Reassembler's state only. -/
theorem State.Inv.of_eq {s t : State} (h : s.Inv) (hcfg : t.cfg = s.cfg) (hbuf : t.buf = s.buf)
    (hrs : t.rsState = s.rsState) : t.Inv :=
  ⟨by rw [hcfg, hbuf]; exact h.noPair, by rw [hcfg, hbuf]; exact h.bounded, hrs.trans h.accumulating⟩

/-- An empty buffer meets I-1 and I-2. -/
theorem State.inv_of_buf_eq_nil {s : State} (hbuf : s.buf = []) (hrs : s.rsState = .accumulating) : s.Inv :=
  ⟨by rw [hbuf]; exact (hasPair_eq_false_iff _ _).mpr (not_holdsPair_of_short _ (by simp)), by simp [hbuf], hrs⟩

/-- After a RECEIVE: a residue within the ceiling meets I-1 and I-2 as it is, one over it is cleared. -/
theorem State.inv_received {s : State} {b residue : Bytes} {fs : List Bytes} (h : Segmented s.cfg b fs residue) :
    (s.received fs residue).Inv := by
  rcases Nat.lt_or_ge s.cfg.ceiling residue.length with hover | hfits
  · exact State.inv_of_buf_eq_nil (by simp [overflows_of_lt hover]) rfl
  · have hbuf : (s.received fs residue).buf = residue := by simp [overflows_of_le hfits]
    exact ⟨by rw [hbuf]; exact (hasPair_eq_false_iff _ _).mpr h.not_holdsPair, by rw [hbuf]; exact hfits, rfl⟩

theorem exec_preserves_inv {i : Instr} {s t : State} (hinv : s.Inv) (hexec : exec i s = .next t) : t.Inv := by
  cases i with
  | encode cmd =>
    obtain rfl := eq_of_eq_next (exec_encode cmd s) hexec
    exact hinv.of_eq rfl rfl rfl
  | receive chunk =>
    rcases eq_of_exec_receive hexec with rfl | ⟨fs, residue, hseg, rfl⟩
    · exact hinv.of_eq rfl rfl rfl
    · exact State.inv_received hseg
  | reset =>
    obtain rfl := eq_of_eq_next (exec_reset s) hexec
    exact State.inv_of_buf_eq_nil rfl rfl
  | reserved opb data =>
    obtain rfl := eq_of_eq_next (exec_reserved opb data s) hexec
    exact hinv.of_eq rfl rfl rfl

/-- Settles O12: a step waits or executes one request, and every request keeps the invariants. -/
theorem boundaryInvariantKeptByEveryStep : Obligations.BoundaryInvariantKeptByEveryStep := by
  unfold Obligations.BoundaryInvariantKeptByEveryStep
  intro s t hinv hstep
  rcases step_cases s with ⟨-, hwait⟩ | ⟨i, rest, -, hrun⟩
  · exact eq_of_eq_next hwait hstep ▸ hinv
  · exact exec_preserves_inv (hinv.of_eq rfl rfl rfl : (s.setPort rest).Inv) (hrun.symm.trans hstep)

/-- Settles O13. -/
theorem powerOnStateMeetsTheBoundaryInvariant : Obligations.PowerOnStateMeetsTheBoundaryInvariant := by
  unfold Obligations.PowerOnStateMeetsTheBoundaryInvariant
  have hinv : ∀ cfg, (State.powerOn cfg).Inv := fun _ => State.inv_of_buf_eq_nil rfl rfl
  refine ⟨fun cfg => ⟨rfl, rfl, rfl, rfl, hinv cfg⟩, rfl, hinv defaultConfig, ?_⟩
  decide

/-! ### Codes and reserved bytes -/

/-- Settles O19. -/
theorem statusCodesAndCategories : Obligations.StatusCodesAndCategories := by
  unfold Obligations.StatusCodesAndCategories
  refine ⟨rfl, rfl, fun st => ?_⟩
  cases st <;> decide

/-- Settles O48: the bytes are the encoding of a well-formed reserved request. -/
theorem reservedBytesAtThePortAreRefused : Obligations.ReservedBytesAtThePortAreRefused := by
  unfold Obligations.ReservedBytesAtThePortAreRefused
  intro opb data rest s hfit hencode hreceive hreset hport
  have hwf : (Instr.reserved opb data).wellFormed = true := by
    rw [Instr.wellFormed, Bool.and_eq_true_iff]
    exact ⟨decide_eq_true hfit, (isReserved_iff opb data).mpr ⟨hencode, hreceive, hreset⟩⟩
  exact step_of_port_eq_encode_append hwf hport

end Sys2Proof.Machine
end

section
/-! PROOF. The BinaryFrames an ENCODE hands to Transport (spec/30_encoding.md R52 to R57, spec/40_frame_encoder.md R79
to R84). -/

namespace Sys2Proof.Machine

/-! ### The payload -/

/-- The byte of a big-endian number at an offset (R11). -/
theorem beBytes_getElem? {k j : Nat} (v : Nat) (h : j < k) :
    (beBytes k v)[j]? = some (BitVec.ofNat 8 (v / 256 ^ (k - 1 - j))) := by
  induction k generalizing j with
  | zero => omega
  | succ k ih =>
    cases j with
    | zero => simp [beBytes]
    | succ j =>
      rw [beBytes, List.getElem?_cons_succ, ih (by omega), show k + 1 - 1 - (j + 1) = k - 1 - j by omega]

/-- A byte of a word is a digit of its value to the base 256. -/
theorem extractLsb'_byte {w : Nat} (v : BitVec w) (n : Nat) :
    v.extractLsb' (8 * n) 8 = BitVec.ofNat 8 (v.toNat / 256 ^ n) := by
  rw [BitVec.extractLsb', Nat.shiftRight_eq_div_pow, Nat.pow_mul]

theorem addr64Bytes_getElem? (v : BitVec 64) {k : Nat} (h : k < 8) :
    (addr64Bytes v)[k]? = some (v.extractLsb' (56 - 8 * k) 8) := by
  rw [addr64Bytes, beBytes_getElem? _ h, ← extractLsb'_byte, show 8 * (8 - 1 - k) = 56 - 8 * k by omega]

theorem addr16Bytes_getElem? (v : BitVec 16) {k : Nat} (h : k < 2) :
    (addr16Bytes v)[k]? = some (v.extractLsb' (8 - 8 * k) 8) := by
  rw [addr16Bytes, beBytes_getElem? _ h, ← extractLsb'_byte, show 8 * (2 - 1 - k) = 8 - 8 * k by omega]

@[simp] theorem addr64Bytes_length (v : BitVec 64) : (addr64Bytes v).length = 8 := beBytes_length ..

@[simp] theorem addr16Bytes_length (v : BitVec 16) : (addr16Bytes v).length = 2 := beBytes_length ..

/-- R53, in one piece. -/
theorem payload_eq_cons (cfg : Config) (cmd : Bytes) : payload cfg cmd =
    cfg.frameType :: cfg.frameId :: (addr64Bytes cfg.dest64 ++ (addr16Bytes cfg.dest16 ++
      (cfg.radius :: cfg.options :: cmd))) := by
  simp [payload, header]

@[simp] theorem payload_length (cfg : Config) (cmd : Bytes) : (payload cfg cmd).length = 14 + cmd.length := by
  simp [payload_eq_cons]
  omega

theorem payload_getElem?_two_add (cfg : Config) (cmd : Bytes) (k : Nat) : (payload cfg cmd)[2 + k]? =
    (addr64Bytes cfg.dest64 ++ (addr16Bytes cfg.dest16 ++ (cfg.radius :: cfg.options :: cmd)))[k]? := by
  rw [payload_eq_cons, Nat.add_comm]
  rfl

theorem payload_getElem?_ten_add (cfg : Config) (cmd : Bytes) (k : Nat) : (payload cfg cmd)[10 + k]? =
    (addr16Bytes cfg.dest16 ++ (cfg.radius :: cfg.options :: cmd))[k]? := by
  rw [show 10 + k = 2 + (8 + k) by omega, payload_getElem?_two_add, List.getElem?_append_right (by simp)]
  simp

theorem payload_getElem?_twelve_add (cfg : Config) (cmd : Bytes) (k : Nat) : (payload cfg cmd)[12 + k]? =
    (cfg.radius :: cfg.options :: cmd)[k]? := by
  rw [show 12 + k = 10 + (2 + k) by omega, payload_getElem?_ten_add, List.getElem?_append_right (by simp)]
  simp

/-- Settles O23. -/
theorem payloadFieldsByOffset : Obligations.PayloadFieldsByOffset := by
  unfold Obligations.PayloadFieldsByOffset
  intro cfg cmd
  refine ⟨payload_length cfg cmd, ?_, ?_, fun k hk => ?_, fun k hk => ?_, payload_getElem?_twelve_add cfg cmd 0,
    payload_getElem?_twelve_add cfg cmd 1, fun k _ => ?_⟩
  · rw [payload_eq_cons]
    rfl
  · rw [payload_eq_cons]
    rfl
  · rw [payload_getElem?_two_add, List.getElem?_append_left (by simpa using hk), addr64Bytes_getElem? _ hk]
  · rw [payload_getElem?_ten_add, List.getElem?_append_left (by simpa using hk), addr16Bytes_getElem? _ hk]
  · rw [show 14 + k = 12 + (k + 2) by omega, payload_getElem?_twelve_add]
    rfl

/-! ### The checksum -/

theorem byteSum_append (p q : Bytes) : byteSum (p ++ q) = byteSum p + byteSum q := by
  simp [byteSum]

theorem byteSum_of_perm {p q : Bytes} (h : p.Perm q) : byteSum p = byteSum q := (h.map _).sum_eq

/-- The checksum completes the sum (R56). -/
theorem byteSum_add_checksum (p : Bytes) : (byteSum p + (checksum p).toNat) % 256 = 0xFF := by
  rw [checksum_toNat]
  omega

/-- Settles O25. -/
theorem checksumComplementsTheSum : Obligations.ChecksumComplementsTheSum := by
  unfold Obligations.ChecksumComplementsTheSum
  intro p
  refine ⟨BitVec.eq_of_toNat_eq ?_, byteSum_add_checksum p⟩
  rw [checksum_toNat, BitVec.toNat_not, BitVec.toNat_ofNat]
  rfl

/-- Settles O26: the checksum depends on the sum alone. -/
theorem checksumIgnoresByteOrder : Obligations.ChecksumIgnoresByteOrder := by
  unfold Obligations.ChecksumIgnoresByteOrder
  intro cfg cmd cmd' hperm
  have hpayload : (payload cfg cmd).Perm (payload cfg cmd') := hperm.append_left (header cfg)
  rw [checksum, checksum, byteSum_of_perm hpayload]

/-! ### The frames handed over -/

/-- The frame of a payload that fits its length field is well-formed (R57). -/
theorem wellFormedFrame_frame {p : Bytes} (h : p.length ≤ 65535) : wellFormedFrame (frame p) = true := by
  have hlen : (BitVec.ofNat 8 (p.length / 256)).toNat * 256 + (BitVec.ofNat 8 (p.length % 256)).toNat = p.length := by
    rw [BitVec.toNat_ofNat, BitVec.toNat_ofNat]
    omega
  have hsum : byteSum (p ++ [checksum p]) % 256 = 0xFF := by
    rw [byteSum_append]
    exact byteSum_add_checksum p
  rw [frame_eq_cons]
  simp only [wellFormedFrame, hlen, startDelim]
  simp [List.take_of_length_le, hsum]

@[simp] theorem newCalls_encoded (s : State) (cmd : Bytes) :
    newCalls s (s.encoded cmd) = encodeCalls s.cfg cmd s.txDraw := by
  rw [newCalls, State.encoded_calls, List.drop_left]

/-- The one hand-off an ENCODE can make. -/
theorem eq_of_write_mem_encodeCalls {cfg : Config} {cmd : Bytes} {d : TxDraw} {f : Bytes} {k : Nat}
    (h : TransportCall.write f k ∈ encodeCalls cfg cmd d) :
    cmd.length ≤ 65521 ∧ f = frame (payload cfg cmd) ∧ k = d.acceptedOf f := by
  rcases encodeCalls_cases cfg cmd d with hnone | hsample | ⟨hle, hwrite⟩
  · simp [hnone] at h
  · simp [hsample] at h
  · obtain ⟨rfl, rfl⟩ : f = frame (payload cfg cmd) ∧ k = d.acceptedOf (frame (payload cfg cmd)) := by
      simpa [hwrite] using h
    exact ⟨hle, rfl, rfl⟩

/-- The same, read off an ENCODE that has answered. -/
theorem eq_of_write_mem_newCalls {s t : State} {cmd f : Bytes} {k : Nat} (hexec : exec (.encode cmd) s = .next t)
    (h : TransportCall.write f k ∈ newCalls s t) :
    cmd.length ≤ 65521 ∧ f = frame (payload s.cfg cmd) ∧ k = s.txDraw.acceptedOf f := by
  obtain rfl := eq_of_eq_next (exec_encode cmd s) hexec
  exact eq_of_write_mem_encodeCalls (by simpa using h)

/-- Settles O24: the one frame handed over is that of a payload within the 16-bit length field. -/
theorem everyHandedFrameIsWellFormed : Obligations.EveryHandedFrameIsWellFormed := by
  unfold Obligations.EveryHandedFrameIsWellFormed
  intro cmd s t f k hexec hwrite
  obtain ⟨hle, rfl, rfl⟩ := eq_of_write_mem_newCalls hexec hwrite
  refine ⟨wellFormedFrame_frame ?_, ?_, acceptedOf_le_length ..⟩
  · rw [payload_length]
    omega
  · rw [frame_length, payload_length]
    omega

/-- Settles O27. -/
theorem handedFrameDependsOnCommandAndConfigurationOnly :
    Obligations.HandedFrameDependsOnCommandAndConfigurationOnly := by
  unfold Obligations.HandedFrameDependsOnCommandAndConfigurationOnly
  intro cmd s s' t t' f f' k k' hcfg hexec hexec' hwrite hwrite'
  obtain ⟨-, rfl, -⟩ := eq_of_write_mem_newCalls hexec hwrite
  obtain ⟨-, rfl, -⟩ := eq_of_write_mem_newCalls hexec' hwrite'
  rw [hcfg]

/-! ### The wire -/

/-- The bytes Transport accepts of a frame are its first `d.accepted` (R76; log entry 8). -/
theorem take_acceptedOf (d : TxDraw) (b : Bytes) : b.take (d.acceptedOf b) = b.take d.accepted :=
  List.take_eq_take_min.symm

/-- A connected ENCODE of a command that fits puts the accepted first bytes of its frame on the wire (R77). -/
theorem wire_encoded {s : State} {cmd : Bytes} (hpos : 0 < cmd.length) (hle : cmd.length ≤ 65521)
    (hconn : s.txDraw.connected = true) :
    (s.encoded cmd).wire = s.wire ++ (frame (payload s.cfg cmd)).take s.txDraw.accepted := by
  simp [State.wire, encodeCalls_of_connected hpos hle hconn, TransportCall.accepted, take_acceptedOf]

/-- Settles O28, by induction on the commands. -/
theorem wireHoldsTheAcceptedPrefixesInOrder : Obligations.WireHoldsTheAcceptedPrefixesInOrder := by
  unfold Obligations.WireHoldsTheAcceptedPrefixesInOrder
  intro cmds ds more s hcmds hconn hlen hdraws
  induction cmds generalizing ds s with
  | nil =>
    obtain rfl : ds = [] := List.length_eq_zero_iff.mp hlen.symm
    exact ⟨s, rfl, hdraws, by simp⟩
  | cons c cmds ih =>
    obtain ⟨d, ds, rfl⟩ := List.exists_cons_of_length_eq_add_one hlen.symm
    obtain ⟨⟨hpos, hle⟩, hcmds⟩ := List.forall_mem_cons.mp hcmds
    obtain ⟨hd, hconn⟩ := List.forall_mem_cons.mp hconn
    have hdraw : s.txDraw = d := by simp [State.txDraw, hdraws]
    obtain ⟨t, hrun, hmore, hwire⟩ := ih ds (s.encoded c) hcmds hconn (by simpa using hlen) (by simp [hdraws])
    refine ⟨t, (execAll_cons_of_next (exec_encode c s)).trans hrun, hmore, ?_⟩
    rw [hwire, wire_encoded hpos hle (hdraw ▸ hd), hdraw]
    simp

/-- Settles O29, by running the example. -/
theorem exampleCommandGivesTheWorkedFrame : Obligations.ExampleCommandGivesTheWorkedFrame := by
  unfold Obligations.ExampleCommandGivesTheWorkedFrame
  exact ⟨_, rfl, by decide, by decide⟩

end Sys2Proof.Machine
end

section
/-! PROOF. Runs of RECEIVEs over a byte stream (spec/41_stream_reassembler.md R95 to R104, spec/42_control.md R109,
spec/70_reset_and_hazards.md R131). -/

namespace Sys2Proof.Machine

/-! ### Runs of requests -/

section Runs

variable {i : Instr} {is : List Instr} {s t u : State}

theorem execAll_completes (is : List Instr) (s : State) : ∃ t, execAll is s = .next t := by
  induction is generalizing s with
  | nil => exact ⟨s, rfl⟩
  | cons i is ih =>
    obtain ⟨u, -, hi, -⟩ := exec_answeredBy i s
    obtain ⟨t, hrun⟩ := ih u
    exact ⟨t, (execAll_cons_of_next hi).trans hrun⟩

/-- A run that answered, taken apart at its first request. -/
theorem exists_next_of_execAll_cons (h : execAll (i :: is) s = .next t) :
    ∃ u, exec i s = .next u ∧ execAll is u = .next t := by
  obtain ⟨u, -, hi, -⟩ := exec_answeredBy i s
  exact ⟨u, hi, (execAll_cons_of_next hi).symm.trans h⟩

/-- A run only adds to the record of answers. -/
theorem answers_eq_of_execAll (h : execAll is s = .next t) : t.answers = s.answers ++ newAnswers s t := by
  induction is generalizing s with
  | nil =>
    obtain rfl := Host.Outcome.next.inj h
    simp [newAnswers]
  | cons i is ih =>
    obtain ⟨u, hi, hrun⟩ := exists_next_of_execAll_cons h
    obtain ⟨a, hans⟩ := answeredBy_of_exec hi
    have hall : t.answers = s.answers ++ (a :: newAnswers u t) := by
      rw [ih hrun, hans.answers]
      simp
    rw [newAnswers_of_answers_eq hall, hall]

theorem newAnswers_of_exec_of_execAll (hi : exec i s = .next u) (hrun : execAll is u = .next t) :
    newAnswers s t = newAnswers s u ++ newAnswers u t := by
  obtain ⟨a, hans⟩ := answeredBy_of_exec hi
  rw [newAnswers_of_answers_eq hans.answers]
  apply newAnswers_of_answers_eq
  rw [answers_eq_of_execAll hrun, hans.answers, List.append_assoc]

theorem newFrames_of_exec_of_execAll (hi : exec i s = .next u) (hrun : execAll is u = .next t) :
    newFrames s t = newFrames s u ++ newFrames u t := by
  simp only [newFrames, newAnswers_of_exec_of_execAll hi hrun, List.flatMap_append]

@[simp] theorem newFrames_self (s : State) : newFrames s s = [] := newFrames_of_answers_eq (new := []) (by simp)

theorem execAll_preserves_inv (hinv : s.Inv) (h : execAll is s = .next t) : t.Inv := by
  induction is generalizing s with
  | nil => exact Host.Outcome.next.inj h ▸ hinv
  | cons i is ih =>
    obtain ⟨u, hi, hrun⟩ := exists_next_of_execAll_cons h
    exact ih (exec_preserves_inv hinv hi) hrun

theorem cfg_eq_of_execAll (h : execAll is s = .next t) : t.cfg = s.cfg := by
  induction is generalizing s with
  | nil => exact Host.Outcome.next.inj h ▸ rfl
  | cons i is ih =>
    obtain ⟨u, hi, hrun⟩ := exists_next_of_execAll_cons h
    obtain ⟨a, hans⟩ := answeredBy_of_exec hi
    exact (ih hrun).trans hans.cfg

end Runs

theorem chunksAdmitted_cons_iff (cfg : Config) (c : Bytes) (cs : List Bytes) :
    ChunksAdmitted cfg (c :: cs) ↔ chunkTooLong cfg c = false ∧ ChunksAdmitted cfg cs := by
  rw [chunkTooLong_eq_false_iff]
  exact List.forall_mem_cons

/-! ### Chunk invariance (R99) -/

/-- An OK RECEIVE first in a run: its residue is within the ceiling and stays. -/
theorem received_of_receive_ok {s t : State} {c : Bytes} {is : List Instr}
    (hrun : execAll (.receive c :: is) s = .next t)
    (hok : ∀ a ∈ newAnswers s t, ∃ fs, a = .response ⟨.ok, fs, false⟩) :
    ∃ fs residue, Segmented s.cfg (s.buf ++ c) fs residue ∧ (s.received fs residue).buf = residue ∧
      execAll is (s.received fs residue) = .next t ∧ newFrames s t = fs ++ newFrames (s.received fs residue) t ∧
      ∀ a ∈ newAnswers (s.received fs residue) t, ∃ fs, a = .response ⟨.ok, fs, false⟩ := by
  obtain ⟨u, hexec, hrest⟩ := exists_next_of_execAll_cons hrun
  have hframes := newFrames_of_exec_of_execAll hexec hrest
  rw [newAnswers_of_exec_of_execAll hexec hrest] at hok
  obtain ⟨hfirst, hlater⟩ := List.forall_mem_append.mp hok
  rcases eq_of_exec_receive hexec with rfl | ⟨fs, residue, hseg, rfl⟩
  · simp at hfirst
  · have hfits : overflows s.cfg residue = false := by
      cases hover : overflows s.cfg residue with
      | false => rfl
      | true => simp [hover] at hfirst
    exact ⟨fs, residue, hseg, by simp [hfits], hrest, by simpa using hframes, hlater⟩

/-- Where every RECEIVE of a run answers OK, the frames of the run and the last buffer cut the whole stream. -/
theorem segmented_of_receives_ok {cs : List Bytes} {s t : State} (hno : ¬ HoldsPair s.cfg s.buf)
    (hrun : execAll (cs.map .receive) s = .next t)
    (hok : ∀ a ∈ newAnswers s t, ∃ fs, a = .response ⟨.ok, fs, false⟩) :
    Segmented s.cfg (s.buf ++ cs.flatten) (newFrames s t) t.buf := by
  induction cs generalizing s with
  | nil =>
    obtain rfl := Host.Outcome.next.inj hrun
    simpa using segmented_nil hno
  | cons c cs ih =>
    obtain ⟨fs, residue, hseg, hbuf, hrest, hframes, hlater⟩ := received_of_receive_ok hrun hok
    have htail := ih (s := s.received fs residue) (by rw [hbuf]; exact hseg.not_holdsPair) hrest hlater
    rw [hbuf] at htail
    rw [hframes, List.flatten_cons, ← List.append_assoc]
    exact hseg.append htail

/-- Settles O35: the cutting of the whole stream is the one RECEIVE makes of the concatenation. -/
theorem chunkingDoesNotChangeTheFrames : Obligations.ChunkingDoesNotChangeTheFrames := by
  unfold Obligations.ChunkingDoesNotChangeTheFrames
  intro c cs s t hadm hrun hok
  obtain ⟨fs, residue, hseg, hbuf, hrest, hframes, hlater⟩ := received_of_receive_ok hrun hok
  have htail := segmented_of_receives_ok (by rw [hbuf]; exact hseg.not_holdsPair) hrest hlater
  rw [hbuf] at htail
  have hwhole : Segmented s.cfg (s.buf ++ (c :: cs).flatten) (newFrames s t) t.buf := by
    rw [hframes, List.flatten_cons, ← List.append_assoc]
    exact hseg.append htail
  have hinv := execAll_preserves_inv (State.inv_received hseg) hrest
  have hcfg : t.cfg = s.cfg := cfg_eq_of_execAll hrun
  have hfits : overflows s.cfg t.buf = false := overflows_of_le (hcfg ▸ hinv.bounded)
  refine ⟨_, newFrames s t, exec_receive_of_segmented ((chunkTooLong_eq_false_iff _ _).mpr hadm) hwhole, ?_, rfl, ?_,
    hinv.accumulating.symm⟩
  · simp [hfits]
  · simp [hfits]

/-! ### The frame-size hazard, spans within the ceiling (R131) -/

/-- One RECEIVE on the way to a frame within the ceiling, after a part `pre` that it consumes: either it delivers the
frame next, or it keeps every byte after `pre`. -/
theorem exec_receive_toward_frame {s : State} {c pre b₀ rest noise f tail : Bytes} {fs : List Bytes}
    (hadm : chunkTooLong s.cfg c = false) (hbytes : s.buf ++ c = pre ++ b₀) (hpre : Segmented s.cfg pre fs [])
    (hfirst : FirstFrame s.cfg (b₀ ++ rest) noise f tail) (hspan : frameSpan noise f ≤ s.cfg.ceiling) :
    (∃ more residue, exec (.receive c) s = .next (s.received (fs ++ f :: more) residue)) ∨
    (exec (.receive c) s = .next (s.received fs b₀) ∧ (s.received fs b₀).buf = b₀ ∧ ¬ HoldsPair s.cfg b₀) := by
  rcases hfirst.of_append with ⟨tail₀, hfirst₀, -⟩ | ⟨hno, hshort⟩
  · obtain ⟨more, residue, htail⟩ := exists_segmented s.cfg tail₀
    have hseg : Segmented s.cfg (s.buf ++ c) (fs ++ f :: more) residue :=
      hbytes ▸ hpre.append (c := b₀) ⟨noise, tail₀, hfirst₀, htail⟩
    exact .inl ⟨more, residue, exec_receive_of_segmented hadm hseg⟩
  · have hseg : Segmented s.cfg (s.buf ++ c) fs b₀ := by
      simpa [hbytes] using hpre.append (c := b₀) (segmented_nil hno)
    exact .inr ⟨exec_receive_of_segmented hadm hseg, by simp [overflows_of_le (hshort.trans hspan)], hno⟩

/-- The rest of a run delivers whatever it delivers after the frames its first RECEIVE brought. -/
theorem exists_execAll_of_received {s : State} {c residue : Bytes} {fs : List Bytes} (is : List Instr)
    (hexec : exec (.receive c) s = .next (s.received fs residue)) :
    ∃ t more, execAll (.receive c :: is) s = .next t ∧ newFrames s t = fs ++ more := by
  obtain ⟨t, hrun⟩ := execAll_completes is (s.received fs residue)
  exact ⟨t, _, (execAll_cons_of_next hexec).trans hrun, by
    rw [newFrames_of_exec_of_execAll hexec hrun, newFrames_received]⟩

/-- From a buffer without a pair, the first frame of the stream, its span within the ceiling, is delivered first. -/
theorem exists_execAll_newFrames_eq_cons {cs : List Bytes} {s : State} {noise f tail : Bytes}
    (hno : ¬ HoldsPair s.cfg s.buf) (hfirst : FirstFrame s.cfg (s.buf ++ cs.flatten) noise f tail)
    (hspan : frameSpan noise f ≤ s.cfg.ceiling) (hadm : ChunksAdmitted s.cfg cs) :
    ∃ t more, execAll (cs.map .receive) s = .next t ∧ newFrames s t = f :: more := by
  induction cs generalizing s with
  | nil => exact absurd (by simpa using hfirst.holdsPair) hno
  | cons c cs ih =>
    obtain ⟨hc, hcs⟩ := (chunksAdmitted_cons_iff _ _ _).mp hadm
    rw [List.flatten_cons, ← List.append_assoc] at hfirst
    have hnil : Segmented s.cfg [] [] [] := segmented_nil (not_holdsPair_of_short _ (by simp))
    rcases exec_receive_toward_frame hc (List.nil_append _).symm hnil hfirst hspan with
      ⟨more, residue, hexec⟩ | ⟨hexec, hbuf, hno'⟩
    · obtain ⟨t, later, hrun, hframes⟩ := exists_execAll_of_received (cs.map .receive) hexec
      exact ⟨t, more ++ later, hrun, by simpa using hframes⟩
    · obtain ⟨t, more, hrun, hframes⟩ := ih (s := s.received [] (s.buf ++ c)) (by rwa [hbuf]) (by rwa [hbuf]) hspan hcs
      refine ⟨t, more, (execAll_cons_of_next hexec).trans hrun, ?_⟩
      rw [newFrames_of_exec_of_execAll hexec hrun, newFrames_received, hframes]
      rfl

/-- Settles O36: the first RECEIVE consumes `pre`; from then on the buffer holds a beginning of `b`. -/
theorem frameWithinTheCeilingSurvivesEveryChunking : Obligations.FrameWithinTheCeilingSurvivesEveryChunking := by
  unfold Obligations.FrameWithinTheCeilingSurvivesEveryChunking
  intro s c cs fs pre b noise f tail hbytes hlen hpre hfirst hspan hadm
  obtain ⟨hc, hcs⟩ := (chunksAdmitted_cons_iff _ _ _).mp hadm
  rw [List.flatten_cons, ← List.append_assoc] at hbytes
  obtain ⟨b₀, hb₀⟩ := List.prefix_of_prefix_length_le ⟨b, hbytes.symm⟩ (List.prefix_append _ _) hlen
  obtain rfl : b = b₀ ++ cs.flatten := by
    rw [← hb₀, List.append_assoc] at hbytes
    exact (List.append_cancel_left hbytes).symm
  rcases exec_receive_toward_frame hc hb₀.symm hpre hfirst hspan with ⟨more, residue, hexec⟩ | ⟨hexec, hbuf, hno⟩
  · obtain ⟨t, later, hrun, hframes⟩ := exists_execAll_of_received (cs.map .receive) hexec
    exact ⟨t, more ++ later, hrun, by simpa using hframes⟩
  · obtain ⟨t, more, hrun, hframes⟩ := exists_execAll_newFrames_eq_cons (s := s.received fs b₀) (cs := cs)
      (by rwa [hbuf]) (by rwa [hbuf]) hspan hcs
    refine ⟨t, more, (execAll_cons_of_next hexec).trans hrun, ?_⟩
    rw [newFrames_of_exec_of_execAll hexec hrun, newFrames_received, hframes]

/-- A stream within the ceiling, interrupted anywhere: the frames so far, and a residue that is within the ceiling
wherever a frame is still to come. -/
theorem SegmentedWithinCeiling.of_append {cfg : Config} {b₀ rest residue : Bytes} {fs : List Bytes}
    (h : SegmentedWithinCeiling cfg (b₀ ++ rest) fs residue) :
    ∃ before after held, fs = before ++ after ∧ Segmented cfg b₀ before held ∧
      SegmentedWithinCeiling cfg (held ++ rest) after residue ∧ (after = [] ∨ held.length ≤ cfg.ceiling) := by
  induction fs generalizing b₀ with
  | nil =>
    obtain ⟨hb, hno⟩ := h
    have hno₀ : ¬ HoldsPair cfg b₀ := fun hpair =>
      hno (hpair.of_infix (hb ▸ (List.prefix_append b₀ rest).isInfix))
    exact ⟨[], [], b₀, rfl, segmented_nil hno₀, ⟨hb, hno⟩, .inl rfl⟩
  | cons f fs ih =>
    have hall := h
    obtain ⟨noise, tail, hfirst, hspan, hseg⟩ := h
    rcases hfirst.of_append with ⟨tail₀, hfirst₀, rfl⟩ | ⟨hno, hshort⟩
    · obtain ⟨before, after, held, rfl, hbefore, hafter, hheld⟩ := ih hseg
      exact ⟨f :: before, after, held, rfl, ⟨noise, tail₀, hfirst₀, hbefore⟩, hafter, hheld⟩
    · exact ⟨[], f :: fs, b₀, rfl, segmented_nil hno, hall, .inr (hshort.trans hspan)⟩

/-- What the RECEIVE of the first part leaves in the buffer goes on into the frames still to come: a residue over the
ceiling is dropped only after the last frame. -/
theorem exists_segmentedWithinCeiling_received {s : State} {held rest residue : Bytes} {after : List Bytes}
    (before : List Bytes) (h : SegmentedWithinCeiling s.cfg (held ++ rest) after residue)
    (hheld : after = [] ∨ held.length ≤ s.cfg.ceiling) :
    ∃ residue', SegmentedWithinCeiling s.cfg ((s.received before held).buf ++ rest) after residue' := by
  rcases Nat.lt_or_ge s.cfg.ceiling held.length with hover | hfits
  · obtain rfl : after = [] := hheld.resolve_right hover.not_ge
    obtain ⟨hb, hno⟩ := h
    refine ⟨_, rfl, fun hpair => hno (hpair.of_infix ?_)⟩
    rw [← hb]
    simpa [overflows_of_lt hover] using (List.suffix_append held rest).isInfix
  · exact ⟨residue, by simpa [overflows_of_le hfits] using h⟩

/-- Settles O37, by induction on the chunks. -/
theorem everyFrameWithinTheCeilingIsDelivered : Obligations.EveryFrameWithinTheCeilingIsDelivered := by
  unfold Obligations.EveryFrameWithinTheCeilingIsDelivered
  intro s cs fs residue hno hseg hadm
  induction cs generalizing s fs residue with
  | nil =>
    cases fs with
    | nil => exact ⟨s, rfl, newFrames_self s⟩
    | cons f fs =>
      obtain ⟨noise, tail, hfirst, -⟩ := hseg
      exact absurd (by simpa using hfirst.holdsPair) ((hasPair_eq_false_iff _ _).mp hno)
  | cons c cs ih =>
    obtain ⟨hc, hcs⟩ := (chunksAdmitted_cons_iff _ _ _).mp hadm
    rw [List.flatten_cons, ← List.append_assoc] at hseg
    obtain ⟨before, after, held, rfl, hbefore, hafter, hheld⟩ := hseg.of_append
    have hexec := exec_receive_of_segmented hc hbefore
    obtain ⟨residue', hrest⟩ := exists_segmentedWithinCeiling_received before hafter hheld
    obtain ⟨t, hrun, hframes⟩ := ih (s.received before held) after residue' (State.inv_received hbefore).noPair
      hrest hcs
    refine ⟨t, (execAll_cons_of_next hexec).trans hrun, ?_⟩
    rw [newFrames_of_exec_of_execAll hexec hrun, newFrames_received, hframes]

/-! ### The frame-size hazard, a span over the ceiling (R131) -/

/-- Noise, a first start marker, a frame and the first byte of its end marker hold no pair yet. -/
theorem not_holdsPair_of_unfinished {cfg : Config} {noise f : Bytes} (hstart : NoEarlierStart cfg noise)
    (hend : NoEarlierEnd cfg f) : ¬ HoldsPair cfg (noise ++ cfg.startMark.bytes ++ f ++ [cfg.endMark.first]) := by
  have hwhole : FirstFrame cfg ((noise ++ cfg.startMark.bytes ++ f ++ [cfg.endMark.first]) ++ [cfg.endMark.second])
      noise f [] := ⟨by simp [Marker.bytes], hstart, hend⟩
  rcases hwhole.of_append with ⟨tail₀, -, htail⟩ | ⟨hno, -⟩
  · simp at htail
  · exact hno

/-- Settles O38: the unfinished frame is a residue over the ceiling, and its last byte comes alone. -/
theorem frameOverTheCeilingIsLostByALateSplit : Obligations.FrameOverTheCeilingIsLostByALateSplit := by
  unfold Obligations.FrameOverTheCeilingIsLostByALateSplit
  intro s c fs pre noise f hbytes hpre hstart hend hover hpos hadm
  obtain ⟨hc, hlast⟩ := (chunksAdmitted_cons_iff _ _ _).mp hadm
  obtain ⟨hlast, -⟩ := (chunksAdmitted_cons_iff _ _ _).mp hlast
  have hno := not_holdsPair_of_unfinished hstart hend
  generalize hheld : noise ++ s.cfg.startMark.bytes ++ f ++ [s.cfg.endMark.first] = held at hbytes hno
  have hlong : s.cfg.ceiling < held.length := by
    rw [← hheld]
    simp only [List.length_append, Marker.bytes, List.length_cons, List.length_nil]
    exact hover
  have hseg : Segmented s.cfg (s.buf ++ c) fs held := by
    simpa [hbytes] using hpre.append (c := held) (segmented_nil hno)
  have hfirst := exec_receive_of_segmented hc hseg
  have hbuf : (s.received fs held).buf = [] := by simp [overflows_of_lt hlong]
  have hseg' : Segmented s.cfg ((s.received fs held).buf ++ [s.cfg.endMark.second]) [] [s.cfg.endMark.second] := by
    rw [hbuf]
    exact segmented_nil (not_holdsPair_of_short _ (by simp))
  have hsecond := exec_receive_of_segmented (s := s.received fs held) hlast hseg'
  have hkept : overflows s.cfg [s.cfg.endMark.second] = false := overflows_of_le hpos
  refine ⟨_, execAll_pair hfirst hsecond, ?_, by simp [hkept]⟩
  apply newAnswers_of_answers_eq
  simp [hkept, overflows_of_lt hlong]

/-! ### The default ceiling (R104) -/

/-- Bytes without a pair at the default configuration: kept up to 10240 of them, dropped above. -/
theorem exec_receive_at_default_ceiling {b c : Bytes} (hno : ¬ HoldsPair State.reset.cfg (b ++ c)) :
    ∃ t, exec (.receive c) { State.reset with buf := b } = .next t ∧
      ((b ++ c).length ≤ 10240 → t.buf = b ++ c ∧ t.answers = [.response ⟨.ok, [], false⟩]) ∧
      (10240 < (b ++ c).length → t.buf = [] ∧ t.answers = [.response ⟨.rxDropped, [], true⟩]) := by
  refine ⟨_, exec_receive_of_segmented (s := { State.reset with buf := b }) rfl (segmented_nil hno),
    fun hfits => ?_, fun hover => ?_⟩
  · have hkept : overflows State.reset.cfg (b ++ c) = false := overflows_of_le hfits
    rw [State.received_buf, State.received_answers, hkept]
    exact ⟨rfl, rfl⟩
  · have hdropped : overflows State.reset.cfg (b ++ c) = true := overflows_of_lt hover
    rw [State.received_buf, State.received_answers, hdropped]
    exact ⟨rfl, rfl⟩

/-- A filler of the letter x holds no asterisk, and so no pair, whatever else without one follows it. -/
theorem not_holdsPair_filler (n : Nat) {more : Bytes} (h : 0x2A ∉ more) :
    ¬ HoldsPair State.reset.cfg (List.replicate n 0x78 ++ more) := by
  intro hpair
  rcases List.mem_append.mp hpair.startMark_second_mem with hmem | hmem
  · exact absurd (List.eq_of_mem_replicate hmem) (by decide)
  · exact h hmem

/-- Settles O39. -/
theorem defaultCeilingKeeps10240BytesAndDropsMore : Obligations.DefaultCeilingKeeps10240BytesAndDropsMore := by
  unfold Obligations.DefaultCeilingKeeps10240BytesAndDropsMore
  have hfill : ∀ n, ¬ HoldsPair State.reset.cfg ([] ++ List.replicate n 0x78) := fun n => by
    simpa using not_holdsPair_filler n (more := []) (by simp)
  have hlen : ∀ n, ([] ++ List.replicate n (0x78 : Byte)).length = n := fun n => by simp
  refine ⟨fun b c hno => exec_receive_at_default_ceiling hno, ?_, ?_, ?_⟩
  · obtain ⟨t, hexec, hkept, -⟩ := exec_receive_at_default_ceiling (hfill 10240)
    exact ⟨t, hexec, hkept (hlen 10240).le⟩
  · obtain ⟨t, hexec, -, hdropped⟩ := exec_receive_at_default_ceiling (hfill 10241)
    exact ⟨t, hexec, hdropped (by rw [hlen]; omega)⟩
  · obtain ⟨t, hexec, -, hdropped⟩ :=
      exec_receive_at_default_ceiling (not_holdsPair_filler 10240 (more := ascii "/") (by decide))
    exact ⟨t, hexec, hdropped (by rw [List.length_append, List.length_replicate]; decide)⟩

/-! ### After a drop (R104) -/

theorem received_buf_suffix {s : State} {b residue : Bytes} (fs : List Bytes) (h : residue <:+ b) :
    (s.received fs residue).buf <:+ b := by
  rw [State.received_buf]
  split
  · exact List.nil_suffix
  · exact h

/-- Every frame of a run stands, with its markers, in the buffer and the chunks in one piece. -/
theorem frame_infix_of_receives {cs : List Bytes} {s t : State} (hadm : ChunksAdmitted s.cfg cs)
    (hrun : execAll (cs.map .receive) s = .next t) {f : Bytes} (hf : f ∈ newFrames s t) :
    s.cfg.startMark.bytes ++ f ++ s.cfg.endMark.bytes <:+: s.buf ++ cs.flatten := by
  induction cs generalizing s with
  | nil =>
    obtain rfl := Host.Outcome.next.inj hrun
    simp at hf
  | cons c cs ih =>
    obtain ⟨hc, hcs⟩ := (chunksAdmitted_cons_iff _ _ _).mp hadm
    obtain ⟨fs, residue, hseg⟩ := exists_segmented s.cfg (s.buf ++ c)
    have hexec := exec_receive_of_segmented hc hseg
    have hrest := (execAll_cons_of_next hexec).symm.trans hrun
    rw [newFrames_of_exec_of_execAll hexec hrest, newFrames_received, List.mem_append] at hf
    rw [List.flatten_cons, ← List.append_assoc]
    rcases hf with hf | hf
    · exact (hseg.frame_between_markers hf).1.trans (List.prefix_append _ _).isInfix
    · obtain ⟨lost, hlost⟩ := received_buf_suffix (s := s) fs hseg.residue_suffix
      refine (ih (s := s.received fs residue) hcs hrest hf).trans ⟨lost, [], ?_⟩
      rw [← hlost]
      simp

/-- Settles O40: after the drop the buffer is empty, so the run's frames stand in the chunks alone. -/
theorem clearedBytesNeverReturn : Obligations.ClearedBytesNeverReturn := by
  unfold Obligations.ClearedBytesNeverReturn
  intro chunk s t u cs fs hexec hdrop hadm hrun f hf
  rcases eq_of_exec_receive hexec with rfl | ⟨fs', residue, -, rfl⟩
  · simp at hdrop
  · have hover : overflows s.cfg residue = true := by
      cases hover : overflows s.cfg residue with
      | true => rfl
      | false => simp [hover] at hdrop
    simpa [hover] using frame_infix_of_receives (s := s.received fs' residue) hadm hrun hf

/-! ### After RESET (R109) -/

/-- One RECEIVE in two states that agree in all it reads, and in the Reassembler's state: they agree after it. -/
theorem State.ReceivesAs.exists_exec {s s' : State} (h : s.ReceivesAs s') (hrs : s'.rsState = s.rsState) (c : Bytes) :
    ∃ t t', exec (.receive c) s = .next t ∧ exec (.receive c) s' = .next t' ∧ t.ReceivesAs t' ∧
      t'.rsState = t.rsState ∧ newAnswers s t = newAnswers s' t' := by
  rcases h.exec_cases c with ⟨hs, hs'⟩ | ⟨fs, residue, hs, hs', hover⟩
  · exact ⟨_, _, hs, hs', ⟨h.buf, h.ceiling, h.maxChunk, h.startMark, h.endMark⟩, hrs, by simp⟩
  · exact ⟨_, _, hs, hs', ⟨by simp [hover], h.ceiling, h.maxChunk, h.startMark, h.endMark⟩, rfl, by simp [hover]⟩

/-- The same of a run of RECEIVEs. -/
theorem State.ReceivesAs.exists_execAll {s s' : State} (h : s.ReceivesAs s') (hrs : s'.rsState = s.rsState)
    (cs : List Bytes) : ∃ t t', execAll (cs.map .receive) s = .next t ∧ execAll (cs.map .receive) s' = .next t' ∧
      t.buf = t'.buf ∧ t.rsState = t'.rsState ∧ newAnswers s t = newAnswers s' t' := by
  induction cs generalizing s s' with
  | nil => exact ⟨s, s', rfl, rfl, h.buf.symm, hrs.symm, by simp [newAnswers]⟩
  | cons c cs ih =>
    obtain ⟨u, u', hexec, hexec', halike, hrsu, hfirst⟩ := h.exists_exec hrs c
    obtain ⟨t, t', hrun, hrun', hbuf, hrst, hlater⟩ := ih halike hrsu
    refine ⟨t, t', (execAll_cons_of_next hexec).trans hrun, (execAll_cons_of_next hexec').trans hrun', hbuf, hrst, ?_⟩
    rw [newAnswers_of_exec_of_execAll hexec hrun, newAnswers_of_exec_of_execAll hexec' hrun', hfirst, hlater]

/-- Settles O46: after RESET the block agrees with power-on in all that RECEIVEs read. -/
theorem resetForgetsEveryEarlierByte : Obligations.ResetForgetsEveryEarlierByte := by
  unfold Obligations.ResetForgetsEveryEarlierByte
  intro s cs
  have halike : (s.clearBuf.setRsState .accumulating |>.logAnswer (.response (.plain .ok))).ReceivesAs
      (State.powerOn s.cfg) := ⟨rfl, rfl, rfl, rfl, rfl⟩
  obtain ⟨u, v, hu, hv, hbuf, hrs, hans⟩ := halike.exists_execAll rfl cs
  exact ⟨_, u, v, exec_reset s, hu, hv, hbuf, hrs, hans⟩

end Sys2Proof.Machine
end

section
/-! PROOF. The lines of a program: what the readers answer, and which texts they read (spec/30_encoding.md R66,
R69). -/

namespace Sys2Proof.Machine

/-! ### Every line that reads -/

theorem endLine_eq_some_iff (i : Instr) (d : Option TxDraw) (rest : List Char) (l : Line) :
    endLine i d rest = some l ↔ rest = [] ∧ i.wellFormed = true ∧ l = ⟨i, d⟩ := by
  unfold endLine
  split
  case isTrue h => simp [h, eq_comm]
  case isFalse h =>
    simp only [reduceCtorEq, false_iff]
    exact fun hall => h ⟨hall.1, hall.2.1⟩

theorem readEncode_spec {cs : List Char} {l : Line} (h : readEncode cs = some l) :
    ∃ cmd d, l = ⟨.encode cmd, some d⟩ ∧ l.instr.wellFormed = true := by
  simp only [readEncode, Option.bind_eq_bind, Option.bind_eq_some_iff, endLine_eq_some_iff] at h
  obtain ⟨⟨cmd, r₁⟩, -, ⟨conn, r₂⟩, -, ⟨acc, r₃⟩, -, -, hwf, rfl⟩ := h
  exact ⟨cmd, ⟨conn, acc⟩, rfl, hwf⟩

theorem readReceive_spec {cs : List Char} {l : Line} (h : readReceive cs = some l) :
    ∃ chunk, l = ⟨.receive chunk, none⟩ ∧ l.instr.wellFormed = true := by
  simp only [readReceive, Option.bind_eq_bind, Option.bind_eq_some_iff, endLine_eq_some_iff] at h
  obtain ⟨⟨chunk, r⟩, -, -, hwf, rfl⟩ := h
  exact ⟨chunk, rfl, hwf⟩

/-- A line is one of the three forms of R66, and its request is well-formed. -/
theorem readLine_spec {text : List Char} {l : Line} (h : readLine text = some l) :
    l.instr.wellFormed = true ∧
      ((∃ cmd d, l = ⟨.encode cmd, some d⟩) ∨ (∃ chunk, l = ⟨.receive chunk, none⟩) ∨ l = ⟨.reset, none⟩) := by
  simp only [readLine, Option.or_eq_some_iff, Option.bind_eq_some_iff] at h
  rcases h with ⟨cs, -, hline⟩ | ⟨-, ⟨cs, -, hline⟩ | ⟨-, cs, -, hline⟩⟩
  · obtain ⟨cmd, d, hl, hwf⟩ := readEncode_spec hline
    exact ⟨hwf, .inl ⟨cmd, d, hl⟩⟩
  · obtain ⟨chunk, hl, hwf⟩ := readReceive_spec hline
    exact ⟨hwf, .inr (.inl ⟨chunk, hl⟩)⟩
  · obtain ⟨-, hwf, rfl⟩ := (endLine_eq_some_iff _ _ _ _).mp hline
    exact ⟨hwf, .inr (.inr rfl)⟩

/-- Settles O49: a line that reads is one of three well-formed requests. -/
theorem assembledLineDecodesToItsRequest : Obligations.AssembledLineDecodesToItsRequest := by
  unfold Obligations.AssembledLineDecodesToItsRequest
  intro text l hline
  obtain ⟨hwf, hform⟩ := readLine_spec hline
  refine ⟨decode_encode hwf, fun opb data hres => ?_⟩
  rcases hform with ⟨cmd, d, rfl⟩ | ⟨chunk, rfl⟩ | rfl <;> cases hres

/-- Settles O52: the idle port holds the line's encoding alone. -/
theorem presentedLineIsRunByTheNextStep : Obligations.PresentedLineIsRunByTheNextStep := by
  unfold Obligations.PresentedLineIsRunByTheNextStep
  intro text l s hline hport hdraws
  obtain ⟨hwf, -⟩ := readLine_spec hline
  obtain ⟨i, draw⟩ := l
  have hencoded : s.port ++ encode i = encode i ++ [] := by simp [hport]
  cases draw with
  | none =>
    refine ⟨(step_of_port_eq_encode_append (s := s.present (encode i)) hwf hencoded).trans ?_, by simp⟩
    rw [State.present, State.setPort_setPort, ← hport, State.setPort_port_self]
    simp [← hdraws]
  | some d =>
    refine ⟨(step_of_port_eq_encode_append (s := (s.present (encode i)).supplyDraw d) hwf hencoded).trans ?_, ?_⟩
    · simp [State.present, State.supplyDraw, State.setPort, hport, hdraws]
    · rintro d' hd
      exact Option.some.inj hd

/-! ### The forms of bytes -/

/-- No spaces are skipped before a word that opens with none. -/
theorem skipSpaces_append {w : List Char} (h : w.headD ' ' ≠ ' ') (cs : List Char) :
    skipSpaces (w ++ cs) = w ++ cs := by
  cases w with
  | nil => exact absurd rfl h
  | cons c w => exact if_neg h

theorem digitChar_ne_space_ne_x (n : Nat) (h : n < 16) : n.digitChar ≠ ' ' ∧ n.digitChar ≠ 'x' := by
  revert n
  decide

/-- The two digits of a byte. -/
theorem hexText_singleton (v : Byte) : hexText [v] = [(v.toNat / 16).digitChar, (v.toNat % 16).digitChar] := by
  simp [hexText]

theorem readForm_hex {data : Bytes} {text : List Char} (r : List Char)
    (h : text = hexText data ∨ text = (hexText data).map Char.toUpper) :
    readForm ("x\"".toList ++ (text ++ '"' :: r)) = some (data, r) := by
  have hquote : dropWord "\"".toList ("x\"".toList ++ (text ++ '"' :: r)) = none := by simp [dropWord]
  rw [readForm, hquote, dropWord_append]
  simp [readHexPairs_hexText data text r h]

/-- A text of ASCII characters without quote and backslash stands for itself. -/
theorem readQuoted_plain {cs : List Char} (r : List Char) (h : ∀ c ∈ cs, c.toNat < 128 ∧ c ≠ '"' ∧ c ≠ '\\') :
    readQuoted (cs ++ '"' :: r) = some (cs.map asciiCode, r) := by
  induction cs with
  | nil => simp [readQuoted]
  | cons c cs ih =>
    obtain ⟨⟨hascii, hquote, hback⟩, hcs⟩ := List.forall_mem_cons.mp h
    simp [readQuoted, hback, hascii.not_ge, ih hcs]

theorem readQuoted_escapes (data : Bytes) (r : List Char) :
    readQuoted (data.flatMap (fun b => "\\x".toList ++ hexText [b]) ++ '"' :: r) = some (data, r) := by
  induction data with
  | nil => simp [readQuoted]
  | cons b data ih =>
    rw [List.flatMap_cons, hexText_singleton]
    simp only [String.reduceToList, List.cons_append, List.nil_append, readQuoted, (hexByte_digitChar b).1] at ih ⊢
    rw [ih]
    rfl

theorem readForm_quoted (cs : List Char) {v : Bytes} {r : List Char} (h : readQuoted cs = some (v, r)) :
    readForm ("\"".toList ++ cs) = some (v, r) := by
  rw [readForm, dropWord_append]
  simp [h]

theorem readRepCount_decimalText (v : Byte) {ds : List (Fin 10)} (hds : ds ≠ []) (r : List Char) :
    readRepCount v (", ".toList ++ (decimalText ds ++ ')' :: r)) = some (List.replicate (decimalValue ds) v, r) := by
  have hskip : skipSpaces (decimalText ds ++ ')' :: r) = decimalText ds ++ ')' :: r := by
    obtain ⟨d, ds, rfl⟩ := List.exists_cons_of_ne_nil hds
    exact skipSpaces_append (w := decimalText (d :: ds)) (digitChar_ne_space_ne_x d.val (by omega)).1 _
  have hcount := readDecimal_decimalText ds (')' :: r) 0 false (.inr hds) (by
    rintro c r' hc
    obtain ⟨rfl, -⟩ := List.cons.inj hc
    decide)
  simp [readRepCount, skipSpaces, hskip, hcount, decimalValue]

theorem readForm_rep {w : List Char} (hw : w.headD ' ' ≠ ' ') (cs : List Char) :
    readForm ("rep(".toList ++ (w ++ cs)) = readRep (w ++ cs) := by
  have hquote : dropWord "\"".toList ("rep(".toList ++ (w ++ cs)) = none := by simp [dropWord]
  have hhex : dropWord "x\"".toList ("rep(".toList ++ (w ++ cs)) = none := by simp [dropWord]
  rw [readForm, hquote, hhex, dropWord_append]
  simp [skipSpaces_append hw]

theorem readRep_of_prefix (v : Byte) (r : List Char) :
    readRep ("0x".toList ++ (hexText [v] ++ r)) = readRepCount v r := by
  rw [readRep, dropWord_append]
  simp [hexText_singleton, (hexByte_digitChar v).1]

/-- Without the `0x`: the second hex digit of a byte is no `x`. -/
theorem readRep_of_no_prefix (v : Byte) (r : List Char) : readRep (hexText [v] ++ r) = readRepCount v r := by
  have hx := (digitChar_ne_space_ne_x (v.toNat % 16) (by omega)).2
  have hno : dropWord "0x".toList (hexText [v] ++ r) = none := by simp [hexText_singleton, dropWord, hx.symm]
  rw [readRep, hno]
  simp [hexText_singleton, (hexByte_digitChar v).1]

/-- One form, and no `++` after it. -/
theorem readBytes_of_readForm {fuel : Nat} {cs r : List Char} {v : Bytes} (hfuel : 0 < fuel)
    (hform : readForm cs = some (v, r)) (hlast : dropWord "++".toList (skipSpaces r) = none) :
    readBytes fuel cs = some (v, skipSpaces r) := by
  obtain ⟨fuel, rfl⟩ := Nat.exists_eq_add_one_of_ne_zero hfuel.ne'
  simp only [readBytes, hform, Option.bind_eq_bind, Option.bind_some, hlast]
  rfl

/-- One form, and more after a `++`. -/
theorem readBytes_of_readForm_join {fuel : Nat} {cs r r' r'' : List Char} {v vs : Bytes} (hfuel : 0 < fuel)
    (hform : readForm cs = some (v, r)) (hjoin : dropWord "++".toList (skipSpaces r) = some r')
    (hmore : readBytes (fuel - 1) (skipSpaces r') = some (vs, r'')) : readBytes fuel cs = some (v ++ vs, r'') := by
  obtain ⟨fuel, rfl⟩ := Nat.exists_eq_add_one_of_ne_zero hfuel.ne'
  simp only [Nat.add_sub_cancel] at hmore
  simp only [readBytes, hform, Option.bind_eq_bind, Option.bind_some, hjoin, hmore]
  rfl

/-! ### Whole lines -/

theorem readLine_encode (cs : List Char) : readLine ("ENCODE ".toList ++ cs) = readEncode cs := by
  have hskip : skipSpaces ("ENCODE ".toList ++ cs) = "ENCODE ".toList ++ cs := skipSpaces_append (by decide) cs
  have hreceive : dropWord "RECEIVE ".toList ("ENCODE ".toList ++ cs) = none := by simp [dropWord]
  have hreset : dropWord "RESET".toList ("ENCODE ".toList ++ cs) = none := by simp [dropWord]
  rw [readLine, hskip, dropWord_append, hreceive, hreset, Option.bind_some, Option.bind_none, Option.bind_none,
    Option.or_none, Option.or_none]

theorem readLine_receive (cs : List Char) : readLine ("RECEIVE ".toList ++ cs) = readReceive cs := by
  have hskip : skipSpaces ("RECEIVE ".toList ++ cs) = "RECEIVE ".toList ++ cs := skipSpaces_append (by decide) cs
  have hencode : dropWord "ENCODE ".toList ("RECEIVE ".toList ++ cs) = none := by simp [dropWord]
  have hreset : dropWord "RESET".toList ("RECEIVE ".toList ++ cs) = none := by simp [dropWord]
  rw [readLine, hskip, dropWord_append, hencode, hreset, Option.bind_some, Option.bind_none, Option.bind_none,
    Option.or_none, Option.none_or]

theorem readReceive_of_readBytes {w cs : List Char} {chunk : Bytes} (hw : w.headD ' ' ≠ ' ')
    (hbytes : readBytes (w ++ cs).length (w ++ cs) = some (chunk, [])) (hfit : chunk.length < 2 ^ 32) :
    readReceive (w ++ cs) = some ⟨.receive chunk, none⟩ := by
  simp only [readReceive, skipSpaces_append hw, hbytes, Option.bind_eq_bind, Option.bind_some]
  exact (endLine_eq_some_iff _ _ _ _).mpr ⟨rfl, decide_eq_true hfit, rfl⟩

theorem readEncode_of_parts {w cs r₁ r₂ : List Char} {cmd : Bytes} {conn : Bool} {acc : Nat}
    (hw : w.headD ' ' ≠ ' ') (hbytes : readBytes (w ++ cs).length (w ++ cs) = some (cmd, r₁))
    (hconn : readConn r₁ = some (conn, r₂)) (hacc : readAcc cmd r₂ = some (acc, [])) (hfit : cmd.length < 2 ^ 32) :
    readEncode (w ++ cs) = some ⟨.encode cmd, some ⟨conn, acc⟩⟩ := by
  simp only [readEncode, skipSpaces_append hw, hbytes, hconn, hacc, Option.bind_eq_bind, Option.bind_some]
  exact (endLine_eq_some_iff _ _ _ _).mpr ⟨rfl, decide_eq_true hfit, rfl⟩

/-! ### The annotations of an ENCODE line -/

theorem readConn_of_acc (r : List Char) : readConn ("@acc=".toList ++ r) = some (true, "@acc=".toList ++ r) := by
  simp [readConn, dropWord]

theorem readConn_of_conn (conn : Bool) (r : List Char) :
    readConn ("@conn=".toList ++ (if conn then '1' else '0') :: r) = some (conn, skipSpaces r) := by
  rw [readConn, dropWord_append]
  cases conn <;> simp [dropWord]

theorem readAcc_decimalText (cmd : Bytes) {ds : List (Fin 10)} (hds : ds ≠ []) :
    readAcc cmd ("@acc=".toList ++ decimalText ds) = some (decimalValue ds, []) := by
  have hvalue := readDecimal_decimalText ds [] 0 false (.inr hds) (by simp)
  rw [List.append_nil] at hvalue
  rw [readAcc, dropWord_append]
  simp [hvalue, decimalValue, skipSpaces]

/-- The default: `HDR_LEN` and the four bytes around the payload. -/
theorem readAcc_nil (cmd : Bytes) : readAcc cmd [] = some (cmd.length + 18, []) := rfl

/-- An ENCODE line of one hex form, whatever annotations follow it. -/
theorem readLine_encode_hex {data : Bytes} {text r r₂ : List Char} {conn : Bool} {acc : Nat}
    (htext : text = hexText data ∨ text = (hexText data).map Char.toUpper) (hfit : data.length < 2 ^ 32)
    (hlast : dropWord "++".toList (skipSpaces r) = none) (hconn : readConn (skipSpaces r) = some (conn, r₂))
    (hacc : readAcc data r₂ = some (acc, [])) :
    readLine ("ENCODE ".toList ++ ("x\"".toList ++ (text ++ '"' :: r))) = some ⟨.encode data, some ⟨conn, acc⟩⟩ := by
  rw [readLine_encode]
  exact readEncode_of_parts (by decide)
    (readBytes_of_readForm (by simp) (readForm_hex r htext) hlast) hconn hacc hfit

/-- A RECEIVE line of one form. -/
theorem readLine_receive_of_readForm {w cs : List Char} {chunk : Bytes} (hw : w.headD ' ' ≠ ' ')
    (hform : readForm (w ++ cs) = some (chunk, [])) (hfit : chunk.length < 2 ^ 32) :
    readLine ("RECEIVE ".toList ++ (w ++ cs)) = some ⟨.receive chunk, none⟩ := by
  have hpos : 0 < (w ++ cs).length := by
    cases w with
    | nil => exact absurd rfl hw
    | cons c w => simp
  rw [readLine_receive]
  exact readReceive_of_readBytes hw (readBytes_of_readForm hpos hform rfl) hfit

/-- Settles O50. -/
theorem hexLinesReadAsTheirRequests : Obligations.HexLinesReadAsTheirRequests := by
  unfold Obligations.HexLinesReadAsTheirRequests
  refine ⟨by decide, fun data text hfit htext => ⟨?_, ?_, fun ds hds => ?_, fun conn digit hdigit => ?_⟩⟩
  · simpa using readLine_receive_of_readForm (by decide) (readForm_hex [] htext) hfit
  · simpa using readLine_encode_hex htext hfit (r := []) rfl rfl (readAcc_nil data)
  · simpa using readLine_encode_hex htext hfit (r := " @acc=".toList ++ decimalText ds) rfl
      (readConn_of_acc (decimalText ds)) (readAcc_decimalText data hds)
  subst hdigit
  refine ⟨?_, fun ds hds => ?_⟩
  · simpa using readLine_encode_hex htext hfit (r := " @conn=".toList ++ [if conn then '1' else '0']) rfl
      (readConn_of_conn conn []) (readAcc_nil data)
  · simpa using readLine_encode_hex htext hfit
      (r := " @conn=".toList ++ (if conn then '1' else '0') :: (" @acc=".toList ++ decimalText ds)) rfl
      (readConn_of_conn conn (" @acc=".toList ++ decimalText ds)) (readAcc_decimalText data hds)

/-- `rep` whose byte is written with or without `0x`. -/
theorem readForm_rep_decimalText (v : Byte) {ds : List (Fin 10)} (hds : ds ≠ []) {hexPrefix : List Char}
    (hprefix : hexPrefix = "0x".toList ∨ hexPrefix = []) :
    readForm ("rep(".toList ++ (hexPrefix ++ (hexText [v] ++ (", ".toList ++ (decimalText ds ++ [')'])))))
      = some (List.replicate (decimalValue ds) v, []) := by
  have hw : (hexText [v]).headD ' ' ≠ ' ' := by
    rw [hexText_singleton]
    exact (digitChar_ne_space_ne_x _ (by omega)).1
  rcases hprefix with rfl | rfl
  · rw [readForm_rep (by decide), readRep_of_prefix, readRepCount_decimalText v hds]
  · rw [List.nil_append, readForm_rep hw, readRep_of_no_prefix, readRepCount_decimalText v hds]

/-- Two hex forms joined. -/
theorem readBytes_hex_join (data data' : Bytes) {fuel : Nat} (hfuel : 1 < fuel) :
    readBytes fuel ("x\"".toList ++ (hexText data ++ '"' ::
      (" ++ ".toList ++ ("x\"".toList ++ (hexText data' ++ ['"']))))) = some (data ++ data', []) := by
  have hsecond : readBytes (fuel - 1) ("x\"".toList ++ (hexText data' ++ ['"'])) = some (data', []) :=
    readBytes_of_readForm (by omega) (readForm_hex [] (.inl rfl)) rfl
  exact readBytes_of_readForm_join (by omega) (readForm_hex _ (.inl rfl)) rfl hsecond

/-- Settles O51. -/
theorem byteFormsReadAsTheirBytes : Obligations.ByteFormsReadAsTheirBytes := by
  unfold Obligations.ByteFormsReadAsTheirBytes
  refine ⟨fun cs hfit hplain => ?_, fun data hfit => ?_, fun v ds hds hfit => ⟨?_, ?_⟩, fun data data' hfit => ?_⟩
  · simpa using readLine_receive_of_readForm (by decide)
      (readForm_quoted _ (readQuoted_plain [] hplain)) (by simpa using hfit)
  · simpa using readLine_receive_of_readForm (by decide)
      (readForm_quoted _ (readQuoted_escapes data [])) hfit
  · simpa using readLine_receive_of_readForm (by decide)
      (readForm_rep_decimalText v hds (.inl rfl)) (by simpa using hfit)
  · simpa using readLine_receive_of_readForm (by decide)
      (readForm_rep_decimalText v hds (.inr rfl)) (by simpa using hfit)
  · have hline := readReceive_of_readBytes (by decide)
      (readBytes_hex_join data data' (by simp)) hfit
    rw [← readLine_receive] at hline
    simpa using hline

end Sys2Proof.Machine
end
